-- ==== Sys2Proof/Word.lean ====
section
/-! DEFINITION. The word types that cross the ports of the units (R53, R70, R73). Bit 0 is the least significant bit (R17). -/

namespace Sys2Proof

/-- A 1-bit port: sign, mode, kept_lsb, sticky, up, nan (R53). -/
abbrev Bit := BitVec 1

/-- A 32-bit word; the random input has this width (R14). -/
abbrev Word := BitVec 32

/-- A float32: sign in bit 31, exponent field in bits 30:23, mantissa field in bits 22:0 (R70). -/
abbrev F32 := BitVec 32

/-- An 8-bit FNUZ code (R73). -/
abbrev Code := BitVec 8

/-- One call as the caller drives it: unit select, mode, format and port values in one word.
The layout is the model's own (log 2). -/
abbrev CallWord := BitVec 72

end Sys2Proof
end

