-- ==== Sys2Proof/Syntax.lean ====
section
/-! DEFINITION. The formats, the rounding modes, the units and the nine operations of the table (R3, R82, R30, R85). -/

namespace Sys2Proof

/-- The two format variants (R3). -/
inductive Fmt where
  /-- 4 exponent bits, 3 mantissa bits, bias 8 -/
  | e4m3
  /-- 5 exponent bits, 2 mantissa bits, bias 16 -/
  | e5m2
deriving DecidableEq, Repr

/-- The rounding modes (R82, R120). -/
inductive RoundMode where
  /-- "standard": round to nearest, ties to even -/
  | rne
  /-- "stochastic" -/
  | sr
deriving DecidableEq, Repr

/-- The seven units (R30). -/
inductive CodecUnit where
  | encoder | rounding | decoder | isNan | const | decompose | compose
deriving DecidableEq, Repr

/-- What is open of QNAN_BITS, a parameter of a decoder: the sign and the 22 mantissa bits below bit 22; the other nine
bits are fixed by R13, so every value of this type is a legal QNAN_BITS and every legal one is a value of it (log 9). -/
structure QnanBits where
  sign : Bit
  payload : BitVec 22
deriving DecidableEq, Repr

/-- The parameters of a decoder, which name its instance (R84, R201). -/
structure DecoderParams where
  fmt : Fmt
  qnan : QnanBits
deriving DecidableEq, Repr

/-- One operation is one call of one unit on one set of input port values (R21, R85); one constructor per row of
opcode_table.json. Any number of instances of a unit may exist; they have no identifiers, and two of equal parameters
are interchangeable (R201), so a call names the instance it drives by its parameters: the format, and for a decoder
QNAN_BITS too (R84, R177, log 6). -/
inductive Instr where
  /-- DECOMPOSE: bitview_decompose (R79, R100) -/
  | decompose (f : F32)
  /-- COMPOSE: bitview_compose (R80, R104) -/
  | compose (sign : Bit) (exp : BitVec 8) (man : BitVec 23)
  /-- ROUND.RNE: rounding_decision with mode = 0 (R81, R124); `disc` has w0 bits, see WellFormed -/
  | roundRne (fmt : Fmt) (keptLsb : Bit) (disc : BitVec 21) (sticky : Bit) (rnd : Word)
  /-- ROUND.SR: rounding_decision with mode = 1 (R81, R127); `disc` has w0 bits, see WellFormed -/
  | roundSr (fmt : Fmt) (keptLsb : Bit) (disc : BitVec 21) (sticky : Bit) (rnd : Word)
  /-- ENCODE.RNE: fp8_encoder with mode = 0 (R83, R140) -/
  | encodeRne (fmt : Fmt) (x : F32) (rnd : Word)
  /-- ENCODE.SR: fp8_encoder with mode = 1 (R83, R140) -/
  | encodeSr (fmt : Fmt) (x : F32) (rnd : Word)
  /-- DECODE: fp8_decoder, an instance of the given FMT and QNAN_BITS (R84, R170) -/
  | decode (params : DecoderParams) (code : Code)
  /-- IS_NAN: is_nan, which has no format (R84, R180) -/
  | isNan (code : Code)
  /-- CONST: fmt_const, which has no inputs (R84, R181) -/
  | const (fmt : Fmt)
deriving DecidableEq, Repr

/-- The unit that a call drives (R85). -/
def Instr.unit : Instr → CodecUnit
  | .decompose _ => .decompose
  | .compose _ _ _ => .compose
  | .roundRne _ _ _ _ _ => .rounding
  | .roundSr _ _ _ _ _ => .rounding
  | .encodeRne _ _ _ => .encoder
  | .encodeSr _ _ _ => .encoder
  | .decode _ _ => .decoder
  | .isNan _ => .isNan
  | .const _ => .const

end Sys2Proof
end

