-- ==== Sys2Proof/Config.lean ====
section
/-! DEFINITION. The parameters of an instance: the FMT record (R11) and the open parameters, which are free values
(R15, R16, R215). QNAN_BITS is named by the call of a decoder (Syntax, log 9). -/

namespace Sys2Proof

/-- The FormatConfig record (R11, C2): exponent bits, mantissa bits, bias, and MAX as its float32 word. -/
structure FormatConfig where
  eb : Nat
  mb : Nat
  bias : Nat
  maxBits : F32
deriving DecidableEq, Repr

/-- The two singleton records (R11). -/
def Fmt.config : Fmt → FormatConfig
  | .e4m3 => { eb := 4, mb := 3, bias := 8, maxBits := 0x43700000#32 }
  | .e5m2 => { eb := 5, mb := 2, bias := 16, maxBits := 0x47600000#32 }

def Fmt.eb (fmt : Fmt) : Nat := fmt.config.eb
def Fmt.mb (fmt : Fmt) : Nat := fmt.config.mb
def Fmt.bias (fmt : Fmt) : Nat := fmt.config.bias
def Fmt.maxBits (fmt : Fmt) : F32 := fmt.config.maxBits

/-- The width of the discarded field, w0 = 23 − mb (R11, R121). -/
def Fmt.w0 (fmt : Fmt) : Nat := 23 - fmt.mb

/-- FREE VALUE: ROUND_ERROR_CONST, the one-ULP round-trip error bound (R15, R182, log 10). -/
opaque Config.roundErrorConst : Fmt → Nat

/-- FREE VALUE: LANES, on which no value depends (R16, log 21). -/
opaque Config.lanes : Nat

/-- FREE VALUE: LATENCY, fixed per unit, on which no value depends (R215, log 20). -/
opaque Config.latency : CodecUnit → Nat

end Sys2Proof
end

