-- ==== Sys2Proof/WellFormed.lean ====
section
/-! DEFINITION. Which calls the ports can carry. Every port width but one is in the type of its operand; `disc` is
20 bits wide in E4M3FNUZ and 21 bits wide in E5M2FNUZ (R81). -/

namespace Sys2Proof

/-- `disc` fits the w0-bit port of the format's rounding unit (R81). -/
def discFits (fmt : Fmt) (disc : BitVec 21) : Bool := decide (disc.toNat < 2 ^ fmt.w0)

/-- The call's operands fit the ports of its unit (R79 to R84). -/
def Instr.wf : Instr → Bool
  | .decompose _ => true
  | .compose _ _ _ => true
  | .roundRne fmt _ disc _ _ => discFits fmt disc
  | .roundSr fmt _ disc _ _ => discFits fmt disc
  | .encodeRne _ _ _ => true
  | .encodeSr _ _ _ => true
  | .decode _ _ => true
  | .isNan _ => true
  | .const _ => true

end Sys2Proof
end

