-- ==== Sys2Proof/Decode.lean ====
section
/-! DEFINITION. The call word, its decoder and its encoder. The spec has no opcode word (R85): the table's match and
mask are over the 1-bit mode port, which stands in bit 0. The other places are the model's own (log 2):

    bit 0        mode port, 0 for a unit without one          bits 7:5    zero
    bits 3:1     unit select                                  bits 39:8   port word A
    bit 4        format, 0 for a unit without one             bits 71:40  port word B

    ENCODE       A = x                                        B = rnd
    ROUND        A[20:0] = disc, A[21] = kept_lsb, A[22] = sticky      B = rnd
    DECODE       A[7:0] = code                 B[21:0], B[22] = payload and sign of the decoder's QNAN_BITS
    IS_NAN       A[7:0] = code                                CONST       none
    DECOMPOSE    A = f
    COMPOSE      A[22:0] = man, B[7:0] = exp, B[8] = sign

Every bit that carries no port value is zero (log 3), so a call has one word. -/

namespace Sys2Proof

/-- Why a word is no call. -/
inductive CallReject where
  /-- a bit that carries no port value is set -/
  | unusedBits
  /-- unit select 7 names no unit -/
  | unknownUnit
  /-- disc has more than the w0 bits of its port (R81) -/
  | discOutOfRange
deriving DecidableEq, Repr

/-- mode = 0 is RNE, mode = 1 is SR (R82). -/
def RoundMode.ofBit (b : Bit) : RoundMode := if b = 0#1 then .rne else .sr

/-- The value of the mode port (R82). -/
def RoundMode.toBit : RoundMode → Bit
  | .rne => 0#1
  | .sr => 1#1

/-- The format bit of the call word (log 2). -/
def Fmt.ofBit (b : Bit) : Fmt := if b = 0#1 then .e4m3 else .e5m2

/-- The format bit of the call word (log 2). -/
def Fmt.toBit : Fmt → Bit
  | .e4m3 => 0#1
  | .e5m2 => 1#1

/-- The unit select of the call word (log 2). -/
def CodecUnit.ofSelect (b : BitVec 3) : Option CodecUnit :=
  match b.toNat with
  | 0 => some .encoder
  | 1 => some .rounding
  | 2 => some .decoder
  | 3 => some .isNan
  | 4 => some .const
  | 5 => some .decompose
  | 6 => some .compose
  | _ => none

/-- The unit select of the call word (log 2). -/
def CodecUnit.toSelect : CodecUnit → BitVec 3
  | .encoder => 0#3
  | .rounding => 1#3
  | .decoder => 2#3
  | .isNan => 3#3
  | .const => 4#3
  | .decompose => 5#3
  | .compose => 6#3

def modeField (w : CallWord) : Bit := w.extractLsb' 0 1
def unitField (w : CallWord) : BitVec 3 := w.extractLsb' 1 3
def fmtField (w : CallWord) : Bit := w.extractLsb' 4 1
def spareField (w : CallWord) : BitVec 3 := w.extractLsb' 5 3
def portA (w : CallWord) : Word := w.extractLsb' 8 32
def portB (w : CallWord) : Word := w.extractLsb' 40 32

/-- Accept a call whose unused bits are zero. -/
def whenZero (unused : Bool) (i : Instr) : Except CallReject Instr :=
  if unused then .ok i else .error .unusedBits

/-- ENCODE: rows match 0x0 and 0x1 over the mode port (R82, R83). -/
def readEncode (w : CallWord) : Instr :=
  match RoundMode.ofBit (modeField w) with
  | .rne => .encodeRne (Fmt.ofBit (fmtField w)) (portA w) (portB w)
  | .sr => .encodeSr (Fmt.ofBit (fmtField w)) (portA w) (portB w)

/-- ROUND: rows match 0x0 and 0x1 over the mode port (R81, R82). -/
def readRound (w : CallWord) : Instr :=
  let disc := (portA w).extractLsb' 0 21
  let keptLsb := (portA w).extractLsb' 21 1
  let sticky := (portA w).extractLsb' 22 1
  match RoundMode.ofBit (modeField w) with
  | .rne => .roundRne (Fmt.ofBit (fmtField w)) keptLsb disc sticky (portB w)
  | .sr => .roundSr (Fmt.ofBit (fmtField w)) keptLsb disc sticky (portB w)

/-- The QNAN_BITS of the decoder instance that a DECODE call drives (log 2, log 6). -/
def readQnan (b : Word) : QnanBits := { sign := b.extractLsb' 22 1, payload := b.extractLsb' 0 22 }

/-- Decode the operands of a call of the given unit. -/
def decodeUnit (u : CodecUnit) (w : CallWord) : Except CallReject Instr :=
  let noMode := decide (modeField w = 0#1)
  let noFmt := decide (fmtField w = 0#1)
  let noB := decide (portB w = 0#32)
  let code := (portA w).extractLsb' 0 8
  let onlyCode := decide ((portA w).extractLsb' 8 24 = 0#24)
  match u with
  | .encoder => .ok (readEncode w)
  | .rounding =>
    if (readRound w).wf then whenZero (decide ((portA w).extractLsb' 23 9 = 0#9)) (readRound w)
    else .error .discOutOfRange
  | .decoder =>
    whenZero (noMode && onlyCode && decide ((portB w).extractLsb' 23 9 = 0#9))
      (.decode { fmt := Fmt.ofBit (fmtField w), qnan := readQnan (portB w) } code)
  | .isNan => whenZero (noMode && noFmt && onlyCode && noB) (.isNan code)
  | .const => whenZero (noMode && decide (portA w = 0#32) && noB) (.const (Fmt.ofBit (fmtField w)))
  | .decompose => whenZero (noMode && noFmt && noB) (.decompose (portA w))
  | .compose =>
    whenZero (noMode && noFmt && decide ((portA w).extractLsb' 23 9 = 0#9) && decide ((portB w).extractLsb' 9 23 = 0#23))
      (.compose ((portB w).extractLsb' 8 1) ((portB w).extractLsb' 0 8) ((portA w).extractLsb' 0 23))

/-- The call that a word stands for: total on every word, rejecting by name. -/
def decode (w : CallWord) : Except CallReject Instr :=
  if spareField w = 0#3 then
    match CodecUnit.ofSelect (unitField w) with
    | some u => decodeUnit u w
    | none => .error .unknownUnit
  else .error .unusedBits

/-- Lay the fields of a call word out, the mode port in bit 0. -/
def packCall (mode : Bit) (u : CodecUnit) (fmt : Bit) (a b : Word) : CallWord :=
  b ++ a ++ 0#3 ++ fmt ++ u.toSelect ++ mode

/-- Port word A of a ROUND call. -/
def roundPorts (keptLsb : Bit) (disc : BitVec 21) (sticky : Bit) : Word := 0#9 ++ sticky ++ keptLsb ++ disc

/-- Port word A of a call whose one operand is a code. -/
def codePort (code : Code) : Word := 0#24 ++ code

/-- Port word B of a DECODE call. -/
def qnanPort (q : QnanBits) : Word := 0#9 ++ q.sign ++ q.payload

/-- The word of a call. -/
def encode : Instr → CallWord
  | .decompose f => packCall 0#1 .decompose 0#1 f 0#32
  | .compose sign exp man => packCall 0#1 .compose 0#1 (0#9 ++ man) (0#23 ++ sign ++ exp)
  | .roundRne fmt keptLsb disc sticky rnd =>
    packCall RoundMode.rne.toBit .rounding fmt.toBit (roundPorts keptLsb disc sticky) rnd
  | .roundSr fmt keptLsb disc sticky rnd =>
    packCall RoundMode.sr.toBit .rounding fmt.toBit (roundPorts keptLsb disc sticky) rnd
  | .encodeRne fmt x rnd => packCall RoundMode.rne.toBit .encoder fmt.toBit x rnd
  | .encodeSr fmt x rnd => packCall RoundMode.sr.toBit .encoder fmt.toBit x rnd
  | .decode params code => packCall 0#1 .decoder params.fmt.toBit (codePort code) (qnanPort params.qnan)
  | .isNan code => packCall 0#1 .isNan 0#1 (codePort code) 0#32
  | .const fmt => packCall 0#1 .const fmt.toBit 0#32 0#32

/-- `match` and `mask` of the operation's row in opcode_table.json, over the mode port. -/
def tableRow : Instr → Nat × Nat
  | .decompose _ => (0x0, 0x0)
  | .compose _ _ _ => (0x0, 0x0)
  | .roundRne _ _ _ _ _ => (0x0, 0x1)
  | .roundSr _ _ _ _ _ => (0x1, 0x1)
  | .encodeRne _ _ _ => (0x0, 0x1)
  | .encodeSr _ _ _ => (0x1, 0x1)
  | .decode _ _ => (0x0, 0x0)
  | .isNan _ => (0x0, 0x0)
  | .const _ => (0x0, 0x0)

/-- The call word whose low `nbits` bits are `w`'s and whose other bits are zero. -/
def tableCallWord (nbits w : Nat) : CallWord := BitVec.ofNat 72 (w % 2 ^ nbits)

/-- The call this decoder reads from a table word. The table numbers only the mode port, so one word stands for
several rows; the unit select is then 0, the encoder (log 4). -/
def decodeTableWord (nbits w : Nat) : Option Instr :=
  if w % 2 ^ nbits < 2 ^ 72 then (decode (tableCallWord nbits w)).toOption else none

end Sys2Proof
end

