-- ==== Sys2Proof/Machine/State.lean ====
section
/-! DEFINITION. The outputs of a call, the reasons a step can stop, and the state. The block holds no state
(R31 to R40, R210): `State` is the caller's side of the interface (R30, R204, log 1). -/

namespace Sys2Proof.Machine

/-- The outputs of fmt_const (R181, R182). The widths of the small integers and of the round-trip bound are not
given, so they are natural numbers (log 10, log 18). -/
structure FmtConstants where
  exponentBits : Nat
  mantissaBits : Nat
  bias : Nat
  maxFiniteMagnitude : F32
  minSubnormal : Code
  minNormal : Code
  maxFinite : Code
  epsilon : Code
  nan : Code
  roundErrorBound : Nat
deriving DecidableEq, Repr

/-- The output port values of one call, one constructor per unit (R79 to R84). -/
inductive Outputs where
  /-- bitview_decompose (R79) -/
  | decomposed (sign : Bit) (exp : BitVec 8) (man : BitVec 23) (cls : BitVec 3)
  /-- bitview_compose (R80) -/
  | composed (f : F32)
  /-- rounding_decision (R81) -/
  | rounded (up : Bit)
  /-- fp8_encoder (R83) -/
  | encoded (code : Code)
  /-- fp8_decoder (R84) -/
  | decoded (f : F32)
  /-- is_nan (R84) -/
  | tested (nan : Bit)
  /-- fmt_const (R84) -/
  | constants (k : FmtConstants)
deriving DecidableEq, Repr

/-- A call that has been made, with what it gave back (R204). -/
structure Completed where
  call : Instr
  outputs : Outputs
deriving DecidableEq, Repr

/-- The reasons to stop with a fault: NONE. No unit raises anything for any input (R190, R205), so the type has no
constructor; nothing raises it, and that is safe (log 26). -/
inductive Fault where
deriving DecidableEq, Repr

/-- The reasons to refuse. All are safe: the model stops where no port could carry the call. -/
inductive Refusal where
  /-- an operation without a meaning, raised by `exec`'s refused arms; there are none; safe -/
  | notModelled (mnemonic : String)
  /-- raised by `step` on a call word that is no call (log 3); safe -/
  | notACall (reason : CallReject)
  /-- raised by `composeInts` on a triple of integers outside the widths of R80 (R106, R205); safe -/
  | tripleOutOfRange
  /-- raised by ROUND.RNE and ROUND.SR on a disc wider than the port of its format (R81, log 17); safe -/
  | discOutOfRange
deriving DecidableEq, Repr

/-- The caller's side of the interface: the calls it has still to make, oldest first, and the calls made with what
they gave back, the latest first (log 1). The units have no field: they hold nothing (R31 to R39). -/
structure State where
  calls : List CallWord
  returned : List Completed
deriving DecidableEq, Repr

/-- Nothing is held and there is nothing to reset (R210, R211); no call is pending and none has been made (log 5). -/
def State.reset : State := { calls := [], returned := [] }

end Sys2Proof.Machine
end

