-- ==== Sys2Proof/Machine/Ops.lean ====
section
/-! DEFINITION. The one effect a call has on the state: what it gives back is recorded for the caller (R21, R204).
There is no memory (R37, R50) and no trap entry or return (R195, R196), so no operation stands for them. -/

namespace Sys2Proof.Machine

/-- The state after a call: its outputs are with the caller; nothing else has changed (R54). -/
def State.returning (s : State) (i : Instr) (o : Outputs) : State :=
  { s with returned := { call := i, outputs := o } :: s.returned }

/-- The state once the caller has taken its next call off the queue. -/
def State.withCalls (s : State) (calls : List CallWord) : State := { s with calls := calls }

/-- Complete the call `i` with the outputs `o` (R21, R53). -/
def answer (i : Instr) (o : Outputs) (s : State) : Host.Outcome State Fault Refusal :=
  .next (s.returning i o)

/-- Complete the call `i` if its disc fits the port of its format, and refuse it otherwise (R81, log 17). -/
def answerIfDiscFits (fmt : Fmt) (disc : BitVec 21) (i : Instr) (o : Outputs) (s : State) :
    Host.Outcome State Fault Refusal :=
  if discFits fmt disc then answer i o s else .refused .discOutOfRange

end Sys2Proof.Machine
end

