-- ==== Sys2Proof/Machine/Operands.lean ====
section
/-! DEFINITION. The fields of a float32 (R70) and of a code (R73), read and joined in one place (R88). -/

namespace Sys2Proof.Machine

/-- f[31] (R70) -/
def f32Sign (f : F32) : Bit := f.extractLsb' 31 1

/-- f[30:23] (R70) -/
def f32Exp (f : F32) : BitVec 8 := f.extractLsb' 23 8

/-- f[22:0] (R70) -/
def f32Man (f : F32) : BitVec 23 := f.extractLsb' 0 23

/-- f[30:0], which orders the magnitudes (R72) -/
def f32Mag (f : F32) : BitVec 31 := f.extractLsb' 0 31

/-- The word with the given sign and bits 30:0 -/
def f32OfMag (sign : Bit) (mag : BitVec 31) : F32 := sign ++ mag

/-- {sign, exp, man} (R104) -/
def f32Join (sign : Bit) (exp : BitVec 8) (man : BitVec 23) : F32 := sign ++ exp ++ man

/-- The NaN sentinel (R75) -/
def nanCode : Code := 0x80#8

/-- The only zero (R74) -/
def zeroCode : Code := 0x00#8

/-- c[7] (R73) -/
def codeSign (c : Code) : Bit := c.extractLsb' 7 1

/-- c[6:0], the magnitude code (R77) -/
def codeMag (c : Code) : BitVec 7 := c.extractLsb' 0 7

/-- e = c[6:mb] (R73) -/
def codeExp (fmt : Fmt) (c : Code) : Nat := (codeMag c).toNat >>> fmt.mb

/-- m = c[mb−1:0] (R73) -/
def codeMan (fmt : Fmt) (c : Code) : Nat := c.toNat % 2 ^ fmt.mb

/-- {sign, mag} (R151) -/
def codeJoin (sign : Bit) (mag : BitVec 7) : Code := sign ++ mag

end Sys2Proof.Machine
end

