-- ==== Sys2Proof/Machine/Flags.lean ====
section
/-! DEFINITION. The class and the one-bit tests. The block has no flags (R33): these are plain outputs of one call,
or wires inside one. -/

namespace Sys2Proof.Machine

/-- The classes of a float32 (R101). -/
inductive FloatClass where
  | zero | subnormal | normal | inf | nan
deriving DecidableEq, Repr

/-- The number on the cls port (R86); 5, 6 and 7 are never produced. -/
def FloatClass.number : FloatClass → BitVec 3
  | .zero => 0#3
  | .subnormal => 1#3
  | .normal => 2#3
  | .inf => 3#3
  | .nan => 4#3

/-- The class of the exponent and mantissa fields; the sign plays no part (R100, R101). -/
def classify (exp : BitVec 8) (man : BitVec 23) : FloatClass :=
  if exp = 0x00#8 ∧ man = 0#23 then .zero
  else if exp = 0x00#8 then .subnormal
  else if exp = 0xFF#8 ∧ man = 0#23 then .inf
  else if exp = 0xFF#8 then .nan
  else .normal

/-- The low `n` bits of `v` are not all zero (R121). -/
def stickyOf (v n : Nat) : Bit := if v % 2 ^ n ≠ 0 then 1#1 else 0#1

/-- The code is the sentinel (R180). -/
def isSentinel (c : Code) : Bit := if c = nanCode then 1#1 else 0#1

end Sys2Proof.Machine
end

