-- ==== Sys2Proof/Machine/BitView.lean ====
section
/-! DEFINITION. bitview_decompose and bitview_compose (40_bitview.md). -/

namespace Sys2Proof.Machine

/-- The transient record of a decomposed float32 (R79, R38). -/
structure Decomposed where
  sign : Bit
  exp : BitVec 8
  man : BitVec 23
  cls : FloatClass
deriving DecidableEq, Repr

/-- R100 -/
def decompose (f : F32) : Decomposed :=
  { sign := f32Sign f, exp := f32Exp f, man := f32Man f, cls := classify (f32Exp f) (f32Man f) }

/-- R104 -/
def compose (sign : Bit) (exp : BitVec 8) (man : BitVec 23) : F32 := f32Join sign exp man

/-- DECOMPOSE (R100, R102, R103). -/
def execDecompose (f : F32) (s : State) : Host.Outcome State Fault Refusal :=
  let d := decompose f
  answer (.decompose f) (.decomposed d.sign d.exp d.man d.cls.number) s

/-- COMPOSE (R104); every triple of port values is legal (R106). -/
def execCompose (sign : Bit) (exp : BitVec 8) (man : BitVec 23) (s : State) : Host.Outcome State Fault Refusal :=
  answer (.compose sign exp man) (.composed (compose sign exp man)) s

end Sys2Proof.Machine
end

