-- ==== Sys2Proof/Machine/Decoder.lean ====
section
/-! DEFINITION. fp8_decoder (43_decoder.md §1). -/

namespace Sys2Proof.Machine

/-- QNAN_BITS as a float32 word: exponent field 0xFF, bit 22 set, the other bits as the instance has them
(R13, R171, log 9). -/
def qnanWord (qnan : QnanBits) : F32 := qnan.sign ++ 0xFF#8 ++ 1#1 ++ qnan.payload

/-- The index of the highest 1 bit of a mantissa field, m < 8 (R170, R174). -/
def highestOne (m : Nat) : Nat := if 4 ≤ m then 2 else if 2 ≤ m then 1 else 0

/-- E32 and M32 of a subnormal code, renormalised around its highest 1 bit (R174). -/
def decodeSubnormal (fmt : Fmt) (m : Nat) : BitVec 8 × BitVec 23 :=
  (BitVec.ofNat 8 (highestOne m + 1 + 127 - fmt.bias - fmt.mb),
   BitVec.ofNat 23 ((m - 2 ^ highestOne m) <<< (23 - highestOne m)))

/-- E32 and M32 of a normal code (R173). -/
def decodeNormal (fmt : Fmt) (e m : Nat) : BitVec 8 × BitVec 23 :=
  (BitVec.ofNat 8 (e + 127 - fmt.bias), BitVec.ofNat 23 (m <<< fmt.w0))

/-- The decoder: the sentinel first, then zero, subnormals and normals; no rounding (R170, R194). -/
def fp8Decode (fmt : Fmt) (qnan : QnanBits) (code : Code) : F32 :=
  if code = nanCode then qnanWord qnan
  else if codeExp fmt code = 0 ∧ codeMan fmt code = 0 then 0x00000000#32
  else if codeExp fmt code = 0 then
    compose (codeSign code) (decodeSubnormal fmt (codeMan fmt code)).1 (decodeSubnormal fmt (codeMan fmt code)).2
  else
    compose (codeSign code) (decodeNormal fmt (codeExp fmt code) (codeMan fmt code)).1
      (decodeNormal fmt (codeExp fmt code) (codeMan fmt code)).2

/-- DECODE (R170). -/
def execDecode (params : DecoderParams) (code : Code) (s : State) : Host.Outcome State Fault Refusal :=
  answer (.decode params code) (.decoded (fp8Decode params.fmt params.qnan code)) s

end Sys2Proof.Machine
end

