-- ==== Sys2Proof/Machine/Rounding.lean ====
section
/-! DEFINITION. rounding_decision (41_rounding.md). -/

namespace Sys2Proof.Machine

/-- Half of the discarded range, 2^(w0 − 1) (R124). -/
def halfDisc (fmt : Fmt) : Nat := 2 ^ (fmt.w0 - 1)

/-- RNE: above half up, at half up when sticky or the kept field is odd, below half down (R124, log 11). -/
def roundNearest (fmt : Fmt) (keptLsb : Bit) (disc : BitVec 21) (sticky : Bit) : Bit :=
  if halfDisc fmt < disc.toNat then 1#1
  else if disc.toNat = halfDisc fmt then sticky ||| keptLsb
  else 0#1

/-- The random value SR compares: the low w0 bits of rnd (R127, log 12). -/
def srValue (fmt : Fmt) (rnd : Word) : Nat := rnd.toNat % 2 ^ fmt.w0

/-- SR: up iff the random value is less than disc (R127). -/
def roundStochastic (fmt : Fmt) (disc : BitVec 21) (rnd : Word) : Bit :=
  if srValue fmt rnd < disc.toNat then 1#1 else 0#1

/-- The rounding decision (R124, R127). `up` adds one to the magnitude, away from zero for either sign (R126). -/
def roundDecide (fmt : Fmt) (keptLsb : Bit) (disc : BitVec 21) (sticky : Bit) (mode : RoundMode) (rnd : Word) : Bit :=
  match mode with
  | .rne => roundNearest fmt keptLsb disc sticky
  | .sr => roundStochastic fmt disc rnd

/-- ROUND.RNE (R124, R125). -/
def execRoundRne (fmt : Fmt) (keptLsb : Bit) (disc : BitVec 21) (sticky : Bit) (rnd : Word) (s : State) :
    Host.Outcome State Fault Refusal :=
  answerIfDiscFits fmt disc (.roundRne fmt keptLsb disc sticky rnd)
    (.rounded (roundDecide fmt keptLsb disc sticky .rne rnd)) s

/-- ROUND.SR (R127, R130). -/
def execRoundSr (fmt : Fmt) (keptLsb : Bit) (disc : BitVec 21) (sticky : Bit) (rnd : Word) (s : State) :
    Host.Outcome State Fault Refusal :=
  answerIfDiscFits fmt disc (.roundSr fmt keptLsb disc sticky rnd)
    (.rounded (roundDecide fmt keptLsb disc sticky .sr rnd)) s

end Sys2Proof.Machine
end

