-- ==== Sys2Proof/Machine/Encoder.lean ====
section
/-! DEFINITION. fp8_encoder (42_encoder.md), one definition per step of R140. Arithmetic is on unbounded integers
(R18). -/

namespace Sys2Proof.Machine

/-- Step 2: a magnitude above MAX becomes MAX, infinity included (R142). -/
def clip (fmt : Fmt) (x : F32) : F32 :=
  if (f32Mag fmt.maxBits).toNat < (f32Mag x).toNat then f32OfMag (f32Sign x) (f32Mag fmt.maxBits) else x

/-- Step 3: the 24-bit significand (R143). -/
def significand (x : F32) : Nat :=
  if f32Exp x = 0x00#8 then (f32Man x).toNat else (f32Man x).toNat + 2 ^ 23

/-- Step 3: the source unbiased exponent (R144; −126 for a float32 subnormal, log 13). -/
def sourceExponent (x : F32) : Int :=
  if f32Exp x = 0x00#8 then -126 else ((f32Exp x).toNat : Int) - 127

/-- Step 3: the target exponent T (R144). -/
def targetExponent (fmt : Fmt) (x : F32) : Int := sourceExponent x + (fmt.bias : Int)

/-- Step 4: the extra right shift of the subnormal path (R145). -/
def subnormalShift (fmt : Fmt) (x : F32) : Nat :=
  if 1 ≤ targetExponent fmt x then 0 else (1 - targetExponent fmt x).toNat

/-- Step 4: the stored exponent field before rounding (R145). -/
def exponentField (fmt : Fmt) (x : F32) : Nat :=
  if 1 ≤ targetExponent fmt x then (targetExponent fmt x).toNat else 0

/-- The kept field; it includes the implicit 1 on the normal path (R121). -/
def keptField (fmt : Fmt) (x : F32) : Nat := significand x >>> (fmt.w0 + subnormalShift fmt x)

/-- The top w0 bits of the discarded field (R121). -/
def discField (fmt : Fmt) (x : F32) : BitVec 21 :=
  BitVec.ofNat 21 ((significand x >>> subnormalShift fmt x) % 2 ^ fmt.w0)

/-- Whether bits below `disc` were shifted out (R121, R122, C1). -/
def stickyField (fmt : Fmt) (x : F32) : Bit := stickyOf (significand x) (subnormalShift fmt x)

/-- The mantissa field before rounding (R140, step 4). -/
def mantissaField (fmt : Fmt) (x : F32) : Nat :=
  if 1 ≤ targetExponent fmt x then keptField fmt x - 2 ^ fmt.mb else keptField fmt x

/-- The decision for this input: the kept field's lowest bit, disc and sticky go to the rounding decision (R147). -/
def roundUp (fmt : Fmt) (x : F32) (mode : RoundMode) (rnd : Word) : Bit :=
  roundDecide fmt (BitVec.ofNat 1 (keptField fmt x)) (discField fmt x) (stickyField fmt x) mode rnd

/-- Step 5: the magnitude code after rounding; a carry goes into the exponent field (R148). -/
def roundedMagnitude (fmt : Fmt) (x : F32) (mode : RoundMode) (rnd : Word) : Nat :=
  (exponentField fmt x <<< fmt.mb) + mantissaField fmt x + (roundUp fmt x mode rnd).toNat

/-- Step 6: saturate to the largest finite magnitude code (R149). -/
def saturate (mag : Nat) : Nat := if 127 < mag then 127 else mag

/-- Steps 7 and 8: a zero magnitude is the unsigned zero, any other is packed with the sign (R150, R151). -/
def packCode (sign : Bit) (mag : Nat) : Code :=
  if mag = 0 then zeroCode else codeJoin sign (BitVec.ofNat 7 mag)

/-- Steps 3 to 8 on a clipped input that is not NaN (R140). -/
def encodeClipped (fmt : Fmt) (x : F32) (mode : RoundMode) (rnd : Word) : Code :=
  if (decompose x).cls = .zero then zeroCode
  else packCode (f32Sign x) (saturate (roundedMagnitude fmt x mode rnd))

/-- The encoder: NaN first, then the clip, then the rest (R140, R193). -/
def fp8Encode (fmt : Fmt) (x : F32) (mode : RoundMode) (rnd : Word) : Code :=
  if (decompose x).cls = .nan then nanCode else encodeClipped fmt (clip fmt x) mode rnd

/-- ENCODE.RNE (R140 with mode = 0). -/
def execEncodeRne (fmt : Fmt) (x : F32) (rnd : Word) (s : State) : Host.Outcome State Fault Refusal :=
  answer (.encodeRne fmt x rnd) (.encoded (fp8Encode fmt x .rne rnd)) s

/-- ENCODE.SR (R140 with mode = 1). -/
def execEncodeSr (fmt : Fmt) (x : F32) (rnd : Word) (s : State) : Host.Outcome State Fault Refusal :=
  answer (.encodeSr fmt x rnd) (.encoded (fp8Encode fmt x .sr rnd)) s

end Sys2Proof.Machine
end

