-- ==== Sys2Proof/Machine/Constants.lean ====
section
/-! DEFINITION. is_nan and fmt_const (43_decoder.md §2, §3). The code patterns are derived from the encoder, as R182
asks. -/

namespace Sys2Proof.Machine

/-- The code of a float32 under RNE; the constants are representable, so nothing is rounded. -/
def codeOfF32 (fmt : Fmt) (x : F32) : Code := fp8Encode fmt x .rne 0#32

/-- 2^(1 − bias − mb), the step of the subnormals, as a float32. -/
def minSubnormalF32 (fmt : Fmt) : F32 := compose 0#1 (BitVec.ofNat 8 (127 + 1 - fmt.bias - fmt.mb)) 0#23

/-- 2^(1 − bias), the value with exponent field 1 and mantissa field 0, as a float32. -/
def minNormalF32 (fmt : Fmt) : F32 := compose 0#1 (BitVec.ofNat 8 (127 + 1 - fmt.bias)) 0#23

/-- 2^(−mb), the distance from 1.0 to the next value, as a float32 (G6). -/
def epsilonF32 (fmt : Fmt) : F32 := compose 0#1 (BitVec.ofNat 8 (127 - fmt.mb)) 0#23

/-- The outputs of fmt_const (R181, R182, log 19). -/
def fmtConstants (fmt : Fmt) : FmtConstants :=
  { exponentBits := fmt.eb
    mantissaBits := fmt.mb
    bias := fmt.bias
    maxFiniteMagnitude := fmt.maxBits
    minSubnormal := codeOfF32 fmt (minSubnormalF32 fmt)
    minNormal := codeOfF32 fmt (minNormalF32 fmt)
    maxFinite := codeOfF32 fmt fmt.maxBits
    epsilon := codeOfF32 fmt (epsilonF32 fmt)
    nan := nanCode
    roundErrorBound := Config.roundErrorConst fmt }

/-- IS_NAN (R180). -/
def execIsNan (code : Code) (s : State) : Host.Outcome State Fault Refusal :=
  answer (.isNan code) (.tested (isSentinel code)) s

/-- CONST (R181). -/
def execConst (fmt : Fmt) (s : State) : Host.Outcome State Fault Refusal :=
  answer (.const fmt) (.constants (fmtConstants fmt)) s

end Sys2Proof.Machine
end

