-- ==== Sys2Proof/Machine/Dispatch.lean ====
section
/-! DEFINITION. One arm per operation of the table (R85). -/

namespace Sys2Proof.Machine

def exec (i : Instr) (s : State) : Host.Outcome State Fault Refusal :=
  match i with
  | .decompose f => Sys2Proof.Machine.execDecompose f s
  | .compose sign exp man => Sys2Proof.Machine.execCompose sign exp man s
  | .roundRne fmt keptLsb disc sticky rnd => Sys2Proof.Machine.execRoundRne fmt keptLsb disc sticky rnd s
  | .roundSr fmt keptLsb disc sticky rnd => Sys2Proof.Machine.execRoundSr fmt keptLsb disc sticky rnd s
  | .encodeRne fmt x rnd => Sys2Proof.Machine.execEncodeRne fmt x rnd s
  | .encodeSr fmt x rnd => Sys2Proof.Machine.execEncodeSr fmt x rnd s
  | .decode params code => Sys2Proof.Machine.execDecode params code s
  | .isNan code => Sys2Proof.Machine.execIsNan code s
  | .const fmt => Sys2Proof.Machine.execConst fmt s

end Sys2Proof.Machine
end

