-- ==== Sys2Proof/Machine/Step.lean ====
section
/-! DEFINITION. One step makes the caller's next call (R21, R32). -/

namespace Sys2Proof.Machine

/-- Take the next call off the queue, decode it and run it. With no call pending nothing happens: no unit acts
unless it is called (R21, R30, log 5). A word that is no call is refused by name (log 3). -/
def step (s : State) : Host.Outcome State Fault Refusal :=
  match s.calls with
  | [] => .next s
  | w :: rest =>
    match Sys2Proof.decode w with
    | .ok i => exec i (s.withCalls rest)
    | .error r => .refused (.notACall r)

/-- `n` steps, stopping where a step does not give a next state. -/
def steps : Nat → State → Host.Outcome State Fault Refusal
  | 0, s => .next s
  | n + 1, s =>
    match step s with
    | .next t => steps n t
    | .fault r => .fault r
    | .refused r => .refused r

/-- `s` with that call word as the caller's next call; the calls already pending follow it (log 5). -/
def State.withFetchWord (s : State) (nbits w : Nat) : State := { s with calls := tableCallWord nbits w :: s.calls }

end Sys2Proof.Machine
end

