-- ==== Sys2Proof/Machine/Caller.lean ====
section
/-! DEFINITION. What the caller does with calls: the pseudo-operations of R90, the batch of R56, and COMPOSE given as
unbounded integers (R106). -/

namespace Sys2Proof.Machine

/-- The calls of a list, one after another: a program (R90), or the lanes of a batch (R56, log 21). -/
def callAll : List Instr → State → Host.Outcome State Fault Refusal
  | [], s => .next s
  | i :: rest, s =>
    match exec i s with
    | .next t => callAll rest t
    | .fault r => .fault r
    | .refused r => .refused r

/-- A legal triple is one the port widths of R80 can carry (R106). -/
def legalTriple (sign exp man : Int) : Bool :=
  decide (0 ≤ sign ∧ sign < 2 ∧ 0 ≤ exp ∧ exp < 2 ^ 8 ∧ 0 ≤ man ∧ man < 2 ^ 23)

/-- COMPOSE of a triple of unbounded integers: an illegal triple is refused, never truncated (R106, R205). -/
def composeInts (sign exp man : Int) (s : State) : Host.Outcome State Fault Refusal :=
  if legalTriple sign exp man then
    exec (.compose (BitVec.ofInt 1 sign) (BitVec.ofInt 8 exp) (BitVec.ofInt 23 man)) s
  else .refused .tripleOutOfRange

/-- ENCODE in a mode of the caller's choosing (R83). -/
def encodeCall (fmt : Fmt) (mode : RoundMode) (x : F32) (rnd : Word) : Instr :=
  match mode with
  | .rne => .encodeRne fmt x rnd
  | .sr => .encodeSr fmt x rnd

/-- ENCODE with rnd omitted is the call with rnd = 0 (R83, R90). -/
def encodeDefaultRnd (fmt : Fmt) (mode : RoundMode) (x : F32) : Instr := encodeCall fmt mode x 0#32

/-- The float32 that the last DECODE call gave back. -/
def State.lastDecoded (s : State) : Option F32 :=
  match s.returned with
  | { call := _, outputs := .decoded f } :: _ => some f
  | _ => none

/-- CVT: DECODE by the instance `a`, then ENCODE.RNE in format `b` of what it gave back, with rnd = 0 (R90). -/
def cvt (a : DecoderParams) (b : Fmt) (code : Code) (s : State) : Host.Outcome State Fault Refusal :=
  match exec (.decode a code) s with
  | .next t =>
    match t.lastDecoded with
    | some f => exec (.encodeRne b f 0#32) t
    | none => .next t
  | .fault r => .fault r
  | .refused r => .refused r

end Sys2Proof.Machine
end

