-- ==== Sys2Proof/Machine/Value.lean ====
section
/-! DEFINITION. The real values of the two formats, as exact rationals (R19). No unit computes with them; the rules
about nearness, exactness and the mean are stated in them. -/

namespace Sys2Proof.Machine

/-- The value of a float32 (R71). −0 and +0 are both the rational 0. -/
inductive RealValue where
  | finite (q : ℚ)
  | infinite (sign : Bit)
  | notANumber
deriving DecidableEq

/-- +1 for s = 0 and −1 for s = 1 (R78). -/
def signFactor (sign : Bit) : ℚ := if sign = 1#1 then -1 else 1

/-- The value of a finite float32 (R71, log 15); the rule gives none to an infinity or a NaN. -/
def finite32 (b : F32) : ℚ :=
  if f32Exp b = 0x00#8 then signFactor (f32Sign b) * (((f32Man b).toNat : ℚ) / 2 ^ 23) * 2 ^ (-126 : ℤ)
  else signFactor (f32Sign b) * (1 + ((f32Man b).toNat : ℚ) / 2 ^ 23) * 2 ^ (((f32Exp b).toNat : ℤ) - 127)

/-- val32 (R71). -/
def val32 (b : F32) : RealValue :=
  match (decompose b).cls with
  | .zero => .finite (finite32 b)
  | .subnormal => .finite (finite32 b)
  | .normal => .finite (finite32 b)
  | .inf => .infinite (f32Sign b)
  | .nan => .notANumber

/-- |val32 b| of a word that is not NaN, infinity above every finite magnitude (R72). -/
def magnitude32 (b : F32) : WithTop ℚ :=
  if (decompose b).cls = .inf then ⊤ else ((|finite32 b| : ℚ) : WithTop ℚ)

/-- valF of a code other than the sentinel (R78). -/
def valF (fmt : Fmt) (c : Code) : ℚ :=
  if codeExp fmt c = 0 then
    signFactor (codeSign c) * ((codeMan fmt c : ℚ) / 2 ^ fmt.mb) * 2 ^ (1 - (fmt.bias : ℤ))
  else signFactor (codeSign c) * (1 + (codeMan fmt c : ℚ) / 2 ^ fmt.mb) * 2 ^ ((codeExp fmt c : ℤ) - (fmt.bias : ℤ))

/-- MAX (R11). -/
def maxFiniteValue : Fmt → ℚ
  | .e4m3 => 240
  | .e5m2 => 57344

/-- The input clipped to [−MAX, +MAX], an infinity to the bound of its sign (R142); of no use for a NaN. -/
def clippedValue (fmt : Fmt) (b : F32) : ℚ :=
  match val32 b with
  | .finite q => max (-maxFiniteValue fmt) (min (maxFiniteValue fmt) q)
  | .infinite sign => signFactor sign * maxFiniteValue fmt
  | .notANumber => 0

/-- q, the value of one magnitude step at a clipped input's place (R146). -/
def stepValue (fmt : Fmt) (x : F32) : ℚ := 2 ^ (max (targetExponent fmt x) 1 - (fmt.bias : ℤ) - (fmt.mb : ℤ))

/-- D, the whole discarded field (R121). -/
def wholeDiscarded (fmt : Fmt) (x : F32) : Nat := significand x % 2 ^ (fmt.w0 + subnormalShift fmt x)

end Sys2Proof.Machine
end

