-- ==== Sys2Proof/Safety.lean ====
section
/-! DEFINITION. What a sound record of calls is: every call made fits its ports, and what it gave back lies where the
rules say the outputs of that unit lie. -/

namespace Sys2Proof.Machine

/-- The float32 a decoder may return: +0.0, a normal number, or a quiet NaN (R172, R171). -/
def decodedLegal (f : F32) : Prop :=
  f = 0x00000000#32 ∨ (decompose f).cls = .normal ∨ ((decompose f).cls = .nan ∧ f.getLsbD 22 = true)

/-- The code an encoder may return for `x`: the sentinel for a NaN and only then, otherwise zero or a code with the
sign of `x` (R141, R150, R157). -/
def encodedLegal (x : F32) (code : Code) : Prop :=
  (code = nanCode ↔ (decompose x).cls = .nan) ∧
  (code ≠ nanCode → code ≠ zeroCode → codeSign code = f32Sign x)

/-- The outputs belong to the unit that was called and lie where the rules say. -/
def outputsLegal : Instr → Outputs → Prop
  | .decompose _, .decomposed _ _ _ cls => cls.toNat ≤ 4
  | .compose _ _ _, .composed _ => True
  | .roundRne _ _ _ _ _, .rounded _ => True
  | .roundSr _ _ disc _ _, .rounded up => disc = 0#21 → up = 0#1
  | .encodeRne _ x _, .encoded code => encodedLegal x code
  | .encodeSr _ x _, .encoded code => encodedLegal x code
  | .decode _ code, .decoded f => decodedLegal f ∧ ((decompose f).cls = .nan ↔ code = nanCode)
  | .isNan code, .tested nan => nan = 1#1 ↔ code = 0x80#8
  | .const fmt, .constants k => k.exponentBits + k.mantissaBits = 7 ∧ k.maxFiniteMagnitude = fmt.maxBits
  | _, _ => False

/-- Every recorded call fits its ports and gave back legal outputs. -/
def State.Sound (s : State) : Prop := ∀ r ∈ s.returned, r.call.wf = true ∧ outputsLegal r.call r.outputs

end Sys2Proof.Machine
end

