-- ==== Sys2Proof/Certificates/Slice0/Obligations.lean ====
section
/-! DEFINITION. The statements for the provers. `encodeCall fmt mode x rnd` is ENCODE.RNE or ENCODE.SR by `mode`, so a
statement over `mode` is about both operations. `s.returning i o` is `s` with the call `i` and its outputs `o` recorded
and nothing else changed; `EveryCallChangesOnlyTheRecord` says that in terms of the fields. -/

open Sys2Proof Sys2Proof.Machine

/-! ## The step and the call word (the model's own, log 1 to 5) -/

/-- One step takes the next call word off the queue and runs the call it decodes to (log 1, log 2). -/
def Obligations.StepRunsTheDecodedCall : Prop :=
  ∀ (s : State) (w : CallWord) (rest : List CallWord) (i : Instr),
    s.calls = w :: rest → decode w = .ok i → step s = exec i { s with calls := rest }

/-- With no call pending nothing happens (log 5); a word that is no call is refused by name (log 3). -/
def Obligations.StepWithoutACall : Prop :=
  (∀ s : State, s.calls = [] → step s = .next s) ∧
  ∀ (s : State) (w : CallWord) (rest : List CallWord) (r : CallReject),
    s.calls = w :: rest → decode w = .error r → step s = .refused (.notACall r)

/-- A table word placed for the next step is decoded as `decodeTableWord` says and is the call that runs (log 4, log 5). -/
def Obligations.StepRunsThePlacedTableWord : Prop :=
  ∀ (s : State) (nbits w : Nat) (i : Instr),
    decodeTableWord nbits w = some i → step (s.withFetchWord nbits w) = exec i s

/-- Words written out from the layout of the call word (log 2), the mode port in bit 0 as R82 gives it. -/
def Obligations.WrittenCallWordsDecode : Prop :=
  decode 0x000000003F80000000#72 = .ok (.encodeRne .e4m3 0x3F800000#32 0x00000000#32) ∧
  decode 0x000FFFFF3F90000011#72 = .ok (.encodeSr .e5m2 0x3F900000#32 0x000FFFFF#32) ∧
  decode 0x000000000028000002#72 = .ok (.roundRne .e4m3 1#1 0x80000#21 0#1 0x00000000#32) ∧
  decode 0xFFE000000050000013#72 = .ok (.roundSr .e5m2 0#1 0x100000#21 1#1 0xFFE00000#32) ∧
  decode 0x00400001000000FF14#72 = .ok (.decode ⟨.e5m2, ⟨1#1, 1#22⟩⟩ 0xFF#8) ∧
  decode 0x000000000000008006#72 = .ok (.isNan 0x80#8) ∧
  decode 0x000000000000000018#72 = .ok (.const .e5m2) ∧
  decode 0x00000000FFC123450A#72 = .ok (.decompose 0xFFC12345#32) ∧
  decode 0x00000186007000000C#72 = .ok (.compose 1#1 0x86#8 0x700000#23) ∧
  decode 0x00000000000000000E#72 = .error .unknownUnit ∧
  decode 0x000000000010000002#72 = .error .discOutOfRange

/-- Decoding the word of a call that its ports can carry gives the call back (the layout is the model's, log 2). -/
def Obligations.DecodeOfEncodeIsTheCall : Prop :=
  ∀ i : Instr, i.wf = true → decode (encode i) = .ok i

/-- A word that decodes is the one word of its call, and the call fits its ports (log 2, log 3). -/
def Obligations.EncodeOfDecodeIsTheWord : Prop :=
  ∀ (w : CallWord) (i : Instr), decode w = .ok i → i.wf = true ∧ encode i = w

/-! ## What holds of every call -/

/-- Every call its ports can carry completes, whatever the state; nothing faults, and the one thing refused is a disc
wider than its port (R190, R205; the refusal is log 17). -/
def Obligations.EveryCallCompletes : Prop :=
  (∀ (i : Instr) (s : State), i.wf = true → ∃ o, exec i s = .next (s.returning i o) ∧ outputsLegal i o) ∧
  (∀ (i : Instr) (s : State), i.wf = false → exec i s = .refused .discOutOfRange)

/-- The frame of all nine operations: the pending calls and the outputs of earlier calls stay as they were (log 1). -/
def Obligations.EveryCallChangesOnlyTheRecord : Prop :=
  ∀ (i : Instr) (s t : State), exec i s = .next t →
    t.calls = s.calls ∧ ∃ o, t.returned = { call := i, outputs := o } :: s.returned

/-- Equal inputs give equal outputs, whatever was called before: each operation is a function of its inputs (R40, R54). -/
def Obligations.OutputsAreAFunctionOfTheInputs : Prop :=
  ∃ out : Instr → Outputs, ∀ i : Instr, i.wf = true → ∀ s : State, exec i s = .next (s.returning i (out i))

/-- A batch is its lanes: the outputs of each call are those of the call made alone (R56). -/
def Obligations.BatchIsLanewise : Prop :=
  ∀ (lanes : List Instr), (∀ i ∈ lanes, i.wf = true) → ∀ s : State,
    ∃ outs : List Outputs, outs.length = lanes.length ∧
      callAll lanes s =
        .next { calls := s.calls
                returned := (List.zipWith Completed.mk lanes outs).reverse ++ s.returned } ∧
      ∀ (k : Nat) (i : Instr) (o : Outputs), lanes[k]? = some i → outs[k]? = some o →
        ∀ u : State, exec i u = .next (u.returning i o)

/-- The order in which the lanes are evaluated changes no output (R56, R57). -/
def Obligations.BatchOrderChangesNoOutput : Prop :=
  ∀ (lanes lanes' : List Instr) (s : State), lanes.Perm lanes' → (∀ i ∈ lanes, i.wf = true) →
    ∃ t u : State, callAll lanes s = .next t ∧ callAll lanes' s = .next u ∧
      t.calls = s.calls ∧ u.calls = s.calls ∧ t.returned.Perm u.returned

/-- As many steps as there are queued calls make exactly those calls, in order, and leave the later ones pending (the
queue is the model's, log 1; its words too, log 2). -/
def Obligations.StepsMakeTheQueuedCallsInOrder : Prop :=
  ∀ (program : List Instr) (s t : State), (∀ i ∈ program, i.wf = true) → callAll program s = .next t →
    steps program.length { s with calls := program.map encode ++ s.calls } = .next t

/-- Every step keeps the record sound: each recorded call fits its ports and gave back outputs where the rules allow. -/
def Obligations.StepKeepsTheRecordSound : Prop :=
  ∀ s t : State, s.Sound → step s = .next t → t.Sound

/-- The record is sound at reset, and the block at rest does nothing (log 5). -/
def Obligations.ResetIsSoundAndIdle : Prop :=
  State.reset.Sound ∧ State.reset.calls = [] ∧ State.reset.returned = [] ∧ step State.reset = .next State.reset

/-! ## DECOMPOSE and COMPOSE -/

/-- R100, R101, R86: the three fields, and the class by its five conditions, which leave out no word. -/
def Obligations.DecomposeReturnsFieldsAndClass : Prop :=
  ∀ (f : F32) (s : State), ∃ (sign : Bit) (exp : BitVec 8) (man : BitVec 23) (cls : BitVec 3),
    exec (.decompose f) s = .next (s.returning (.decompose f) (.decomposed sign exp man cls)) ∧
    f.toNat = sign.toNat * 2 ^ 31 + exp.toNat * 2 ^ 23 + man.toNat ∧
    (exp = 0x00#8 → man = 0#23 → cls = 0#3) ∧
    (exp = 0x00#8 → man ≠ 0#23 → cls = 1#3) ∧
    (exp ≠ 0x00#8 → exp ≠ 0xFF#8 → cls = 2#3) ∧
    (exp = 0xFF#8 → man = 0#23 → cls = 3#3) ∧
    (exp = 0xFF#8 → man ≠ 0#23 → cls = 4#3)

/-- R104: f[31] = sign, f[30:23] = exp, f[22:0] = man. -/
def Obligations.ComposeJoinsTheFields : Prop :=
  ∀ (sign : Bit) (exp : BitVec 8) (man : BitVec 23) (s : State), ∃ f : F32,
    exec (.compose sign exp man) s = .next (s.returning (.compose sign exp man) (.composed f)) ∧
    f.toNat = sign.toNat * 2 ^ 31 + exp.toNat * 2 ^ 23 + man.toNat

/-- R105: each of COMPOSE and DECOMPOSE undoes the other, and the class comes from exp and man alone. -/
def Obligations.ComposeAndDecomposeAreInverse : Prop :=
  (∀ (f : F32) (s : State), ∃ (sign : Bit) (exp : BitVec 8) (man : BitVec 23) (cls : BitVec 3),
    exec (.decompose f) s = .next (s.returning (.decompose f) (.decomposed sign exp man cls)) ∧
    ∀ t : State, exec (.compose sign exp man) t = .next (t.returning (.compose sign exp man) (.composed f))) ∧
  (∀ (sign : Bit) (exp : BitVec 8) (man : BitVec 23) (s : State), ∃ f : F32,
    exec (.compose sign exp man) s = .next (s.returning (.compose sign exp man) (.composed f)) ∧
    ∀ t : State, exec (.decompose f) t =
      .next (t.returning (.decompose f) (.decomposed sign exp man (classify exp man).number)))

/-- R106: a triple of integers outside the port widths is refused, one inside is composed, never truncated. -/
def Obligations.ComposeOfIntegersRefusesAnIllegalTriple : Prop :=
  (∀ (sign exp man : Int) (s : State),
    sign < 0 ∨ 1 < sign ∨ exp < 0 ∨ 255 < exp ∨ man < 0 ∨ 2 ^ 23 ≤ man →
    composeInts sign exp man s = .refused .tripleOutOfRange) ∧
  (∀ (sign exp man : Int) (s : State),
    0 ≤ sign → sign ≤ 1 → 0 ≤ exp → exp ≤ 255 → 0 ≤ man → man < 2 ^ 23 →
    ∃ (bs : Bit) (be : BitVec 8) (bm : BitVec 23) (f : F32),
      composeInts sign exp man s = .next (s.returning (.compose bs be bm) (.composed f)) ∧
      (f.toNat : Int) = sign * 2 ^ 31 + exp * 2 ^ 23 + man)

/-! ## ROUND -/

/-- R124 and R125. The pseudocode: above half up, at half by sticky or the kept bit, below half down, and rnd plays no
part. Over the whole discarded field D of w0 + sh bits, of which disc is the top and sticky the rest (R121), this is the
source's standard mode on D and the kept field. -/
def Obligations.RoundRneRoundsToNearestEven : Prop :=
  (∀ (fmt : Fmt) (keptLsb : Bit) (disc : BitVec 21) (sticky : Bit) (s : State), disc.toNat < 2 ^ fmt.w0 →
    ∃ up : Bit,
      (∀ rnd : Word, exec (.roundRne fmt keptLsb disc sticky rnd) s =
        .next (s.returning (.roundRne fmt keptLsb disc sticky rnd) (.rounded up))) ∧
      (2 ^ (fmt.w0 - 1) < disc.toNat → up = 1#1) ∧
      (disc.toNat = 2 ^ (fmt.w0 - 1) → up = (sticky ||| keptLsb)) ∧
      (disc.toNat < 2 ^ (fmt.w0 - 1) → up = 0#1)) ∧
  (∀ (fmt : Fmt) (kept D sh : Nat) (rnd : Word) (s : State), D < 2 ^ (fmt.w0 + sh) →
    ∃ (disc : BitVec 21) (sticky up : Bit),
      disc.toNat = D / 2 ^ sh ∧ (sticky = 1#1 ↔ D % 2 ^ sh ≠ 0) ∧
      exec (.roundRne fmt (BitVec.ofNat 1 kept) disc sticky rnd) s =
        .next (s.returning (.roundRne fmt (BitVec.ofNat 1 kept) disc sticky rnd) (.rounded up)) ∧
      (up = 1#1 ↔ 2 ^ (fmt.w0 + sh) < 2 * D ∨ (2 * D = 2 ^ (fmt.w0 + sh) ∧ kept % 2 = 1)))

/-- R127: up iff the low w0 bits of rnd are less than disc; kept_lsb and sticky play no part. -/
def Obligations.RoundSrComparesTheLowRandomBits : Prop :=
  ∀ (fmt : Fmt) (disc : BitVec 21) (rnd : Word) (s : State), disc.toNat < 2 ^ fmt.w0 →
    ∃ up : Bit,
      (∀ keptLsb sticky : Bit, exec (.roundSr fmt keptLsb disc sticky rnd) s =
        .next (s.returning (.roundSr fmt keptLsb disc sticky rnd) (.rounded up))) ∧
      (up = 1#1 ↔ rnd.toNat % 2 ^ fmt.w0 < disc.toNat)

/-- R128: disc = 0 never rounds up; low random bits 0 round up iff disc ≠ 0; low random bits all ones never round up. -/
def Obligations.RoundSrAtTheEndsOfTheRange : Prop :=
  ∀ (fmt : Fmt) (keptLsb : Bit) (disc : BitVec 21) (sticky : Bit) (rnd : Word) (s : State), disc.toNat < 2 ^ fmt.w0 →
    ∃ up : Bit,
      exec (.roundSr fmt keptLsb disc sticky rnd) s =
        .next (s.returning (.roundSr fmt keptLsb disc sticky rnd) (.rounded up)) ∧
      (disc = 0#21 → up = 0#1) ∧
      (rnd.toNat % 2 ^ fmt.w0 = 0 → (up = 1#1 ↔ disc ≠ 0#21)) ∧
      (rnd.toNat % 2 ^ fmt.w0 = 2 ^ fmt.w0 - 1 → up = 0#1)

/-- R129: of the 2^w0 values of the random value, exactly disc round up. -/
def Obligations.RoundSrRoundsUpForDiscOfTheRandomValues : Prop :=
  ∀ (fmt : Fmt) (keptLsb : Bit) (disc : BitVec 21) (sticky : Bit) (s : State), disc.toNat < 2 ^ fmt.w0 →
    ∃ up : Word → Bit,
      (∀ rnd : Word, exec (.roundSr fmt keptLsb disc sticky rnd) s =
        .next (s.returning (.roundSr fmt keptLsb disc sticky rnd) (.rounded (up rnd)))) ∧
      ((Finset.range (2 ^ fmt.w0)).filter (fun r => up (BitVec.ofNat 32 r) = 1#1)).card = disc.toNat

/-- R81: a disc that the 20-bit port of E4M3FNUZ cannot carry is refused in both modes, never truncated (the refusal is
the model's, log 17); the 21-bit port of E5M2FNUZ carries every disc, and both modes complete. -/
def Obligations.RoundRefusesADiscWiderThanItsPort : Prop :=
  (∀ (keptLsb : Bit) (disc : BitVec 21) (sticky : Bit) (rnd : Word) (s : State), 2 ^ 20 ≤ disc.toNat →
    exec (.roundRne .e4m3 keptLsb disc sticky rnd) s = .refused .discOutOfRange ∧
    exec (.roundSr .e4m3 keptLsb disc sticky rnd) s = .refused .discOutOfRange) ∧
  (∀ (keptLsb : Bit) (disc : BitVec 21) (sticky : Bit) (rnd : Word) (s : State), ∃ up up' : Bit,
    exec (.roundRne .e5m2 keptLsb disc sticky rnd) s =
      .next (s.returning (.roundRne .e5m2 keptLsb disc sticky rnd) (.rounded up)) ∧
    exec (.roundSr .e5m2 keptLsb disc sticky rnd) s =
      .next (s.returning (.roundSr .e5m2 keptLsb disc sticky rnd) (.rounded up')))

/-! ## ENCODE -/

/-- R141: a NaN of any sign and payload gives the sentinel in both modes for every rnd. -/
def Obligations.EncodeOfNaNIsTheSentinel : Prop :=
  ∀ (fmt : Fmt) (mode : RoundMode) (x : F32) (rnd : Word) (s : State), f32Exp x = 0xFF#8 → f32Man x ≠ 0#23 →
    exec (encodeCall fmt mode x rnd) s = .next (s.returning (encodeCall fmt mode x rnd) (.encoded 0x80#8))

/-- R142: the clip replaces a magnitude above MAX by MAX of the same sign, keeps any other, and leaves none above MAX. -/
def Obligations.ClipIsTheMagnitudeClip : Prop :=
  ∀ (fmt : Fmt) (x : F32), ¬ (f32Exp x = 0xFF#8 ∧ f32Man x ≠ 0#23) →
    ((maxFiniteValue fmt : WithTop ℚ) < magnitude32 x → clip fmt x = f32OfMag (f32Sign x) (f32Mag fmt.maxBits)) ∧
    (magnitude32 x ≤ (maxFiniteValue fmt : WithTop ℚ) → clip fmt x = x) ∧
    magnitude32 (clip fmt x) ≤ (maxFiniteValue fmt : WithTop ℚ) ∧
    finite32 (clip fmt x) = clippedValue fmt x

/-- R142, R159: a magnitude of MAX or more, infinity included, gives the largest finite code of its sign in both modes
for every rnd. -/
def Obligations.EncodeSaturatesAtMax : Prop :=
  ∀ (fmt : Fmt) (mode : RoundMode) (x : F32) (rnd : Word) (s : State), ¬ (f32Exp x = 0xFF#8 ∧ f32Man x ≠ 0#23) →
    (maxFiniteValue fmt : WithTop ℚ) ≤ magnitude32 x →
    exec (encodeCall fmt mode x rnd) s = .next (s.returning (encodeCall fmt mode x rnd)
      (.encoded (if f32Sign x = 1#1 then 0xFF#8 else 0x7F#8)))

/-- R155: +∞ gives 0x7F and −∞ gives 0xFF in both modes. -/
def Obligations.EncodeOfInfinitySaturates : Prop :=
  ∀ (fmt : Fmt) (mode : RoundMode) (rnd : Word) (s : State),
    exec (encodeCall fmt mode 0x7F800000#32 rnd) s =
      .next (s.returning (encodeCall fmt mode 0x7F800000#32 rnd) (.encoded 0x7F#8)) ∧
    exec (encodeCall fmt mode 0xFF800000#32 rnd) s =
      .next (s.returning (encodeCall fmt mode 0xFF800000#32 rnd) (.encoded 0xFF#8))

/-- R149: the magnitude code after rounding and carry never exceeds 127 for a clipped input, so the saturation of step 6
never fires; the target exponent fits the exponent field (R146). -/
def Obligations.SaturationNeverFiresAfterTheClip : Prop :=
  ∀ (fmt : Fmt) (x : F32) (mode : RoundMode) (rnd : Word), ¬ (f32Exp x = 0xFF#8 ∧ f32Man x ≠ 0#23) →
    roundedMagnitude fmt (clip fmt x) mode rnd ≤ 127 ∧ targetExponent fmt (clip fmt x) ≤ 2 ^ fmt.eb - 1

/-- R150: a zero input gives 0x00, a zero magnitude always is 0x00 and never 0x80, and RNE takes every magnitude up to
half the smallest subnormal to 0x00. -/
def Obligations.EncodeHasOneZero : Prop :=
  ∀ (fmt : Fmt) (mode : RoundMode) (x : F32) (rnd : Word) (s : State), ¬ (f32Exp x = 0xFF#8 ∧ f32Man x ≠ 0#23) →
    ∃ c : Code,
      exec (encodeCall fmt mode x rnd) s = .next (s.returning (encodeCall fmt mode x rnd) (.encoded c)) ∧
      (f32Mag x = 0#31 → c = 0x00#8) ∧
      (codeMag c = 0#7 → c = 0x00#8) ∧
      (mode = .rne → magnitude32 x ≤ ((valF fmt 0x01#8 / 2 : ℚ) : WithTop ℚ) → c = 0x00#8)

/-- R156: every float32 subnormal of either sign gives 0x00 in both modes for every rnd. -/
def Obligations.EncodeOfFloatSubnormalsIsZero : Prop :=
  ∀ (fmt : Fmt) (mode : RoundMode) (x : F32) (rnd : Word) (s : State), f32Exp x = 0x00#8 → f32Man x ≠ 0#23 →
    exec (encodeCall fmt mode x rnd) s = .next (s.returning (encodeCall fmt mode x rnd) (.encoded 0x00#8))

/-- R157: a result other than 0x00 and 0x80 has the sign of the input, and negating the input negates the result. -/
def Obligations.EncodeKeepsTheSign : Prop :=
  ∀ (fmt : Fmt) (mode : RoundMode) (x : F32) (rnd : Word) (s : State), ¬ (f32Exp x = 0xFF#8 ∧ f32Man x ≠ 0#23) →
    ∃ c : Code,
      exec (encodeCall fmt mode x rnd) s = .next (s.returning (encodeCall fmt mode x rnd) (.encoded c)) ∧
      (c ≠ 0x00#8 → codeSign c = f32Sign x) ∧
      exec (encodeCall fmt mode (x ^^^ 0x80000000#32) rnd) s =
        .next (s.returning (encodeCall fmt mode (x ^^^ 0x80000000#32) rnd)
          (.encoded (if c = 0x00#8 then 0x00#8 else c ^^^ 0x80#8)))

/-- R152, R125, R127: in RNE rnd has no effect on the code, in SR only its low w0 bits have. -/
def Obligations.EncodeUsesOnlyTheLowRandomBits : Prop :=
  ∀ (fmt : Fmt) (x : F32) (s : State), ∃ (c : Code) (c' : Nat → Code),
    (∀ rnd : Word, exec (.encodeRne fmt x rnd) s = .next (s.returning (.encodeRne fmt x rnd) (.encoded c))) ∧
    (∀ rnd : Word, exec (.encodeSr fmt x rnd) s =
      .next (s.returning (.encodeSr fmt x rnd) (.encoded (c' (rnd.toNat % 2 ^ fmt.w0)))))

/-- R146, R148: the clipped magnitude is kept steps and the discarded part of one step, and the code returned has the
magnitude of kept steps or, when the decision is up, of kept + 1 steps, carries included. -/
def Obligations.EncodeChoosesBetweenTheTwoNeighbours : Prop :=
  ∀ (fmt : Fmt) (mode : RoundMode) (x : F32) (rnd : Word) (s : State), ¬ (f32Exp x = 0xFF#8 ∧ f32Man x ≠ 0#23) →
    |clippedValue fmt x| =
      ((keptField fmt (clip fmt x) : ℚ) +
        (wholeDiscarded fmt (clip fmt x) : ℚ) / 2 ^ (fmt.w0 + subnormalShift fmt (clip fmt x))) *
        stepValue fmt (clip fmt x) ∧
    ∃ c : Code,
      exec (encodeCall fmt mode x rnd) s = .next (s.returning (encodeCall fmt mode x rnd) (.encoded c)) ∧
      c ≠ 0x80#8 ∧
      |valF fmt c| =
        ((keptField fmt (clip fmt x) : ℚ) + ((roundUp fmt (clip fmt x) mode rnd).toNat : ℚ)) *
          stepValue fmt (clip fmt x)

/-- R154: ENCODE.RNE is correctly rounded. No code is nearer to the clipped input than the one returned, a tie
goes to the even magnitude code, and the error is at most half a step. -/
def Obligations.EncodeRneIsCorrectlyRounded : Prop :=
  ∀ (fmt : Fmt) (x : F32) (rnd : Word) (s : State), ¬ (f32Exp x = 0xFF#8 ∧ f32Man x ≠ 0#23) →
    ∃ c : Code,
      exec (.encodeRne fmt x rnd) s = .next (s.returning (.encodeRne fmt x rnd) (.encoded c)) ∧
      c ≠ 0x80#8 ∧
      |valF fmt c - clippedValue fmt x| ≤ stepValue fmt (clip fmt x) / 2 ∧
      ∀ d : Code, d ≠ 0x80#8 →
        |valF fmt c - clippedValue fmt x| ≤ |valF fmt d - clippedValue fmt x| ∧
        (|valF fmt c - clippedValue fmt x| = |valF fmt d - clippedValue fmt x| → d ≠ c → c.getLsbD 0 = false)

/-- R131: over the 2^w0 random values the magnitudes ENCODE.SR returns sum to 2^w0 times
(kept + disc / 2^w0) steps; with sticky = 0 the mean of the values is the clipped input exactly, and with sticky = 1,
which only the subnormal path has, the mean magnitude is below it by less than 2^−w0 of a step. -/
def Obligations.EncodeSrMeanIsTheClippedInputButForSticky : Prop :=
  ∀ (fmt : Fmt) (x : F32) (s : State), ¬ (f32Exp x = 0xFF#8 ∧ f32Man x ≠ 0#23) →
    ∃ code : Word → Code,
      (∀ rnd : Word, exec (.encodeSr fmt x rnd) s = .next (s.returning (.encodeSr fmt x rnd) (.encoded (code rnd)))) ∧
      (Finset.range (2 ^ fmt.w0)).sum (fun r => |valF fmt (code (BitVec.ofNat 32 r))|) =
        ((keptField fmt (clip fmt x) : ℚ) * 2 ^ fmt.w0 + ((discField fmt (clip fmt x)).toNat : ℚ)) *
          stepValue fmt (clip fmt x) ∧
      (stickyField fmt (clip fmt x) = 0#1 →
        (Finset.range (2 ^ fmt.w0)).sum (fun r => valF fmt (code (BitVec.ofNat 32 r))) =
          2 ^ fmt.w0 * clippedValue fmt x ∧
        (Finset.range (2 ^ fmt.w0)).sum (fun r => |valF fmt (code (BitVec.ofNat 32 r))|) =
          2 ^ fmt.w0 * |clippedValue fmt x|) ∧
      (stickyField fmt (clip fmt x) = 1#1 →
        targetExponent fmt (clip fmt x) ≤ 0 ∧
        (Finset.range (2 ^ fmt.w0)).sum (fun r => |valF fmt (code (BitVec.ofNat 32 r))|) <
          2 ^ fmt.w0 * |clippedValue fmt x| ∧
        2 ^ fmt.w0 * |clippedValue fmt x| <
          (Finset.range (2 ^ fmt.w0)).sum (fun r => |valF fmt (code (BitVec.ofNat 32 r))|) + stepValue fmt (clip fmt x))

/-- R158: encoding a decoded code other than the sentinel gives the code back, in both modes and for every rnd. -/
def Obligations.EncodeOfDecodeIsTheCode : Prop :=
  ∀ (fmt : Fmt) (q : QnanBits) (mode : RoundMode) (c : Code) (rnd : Word) (s : State), c ≠ 0x80#8 →
    ∃ f : F32,
      exec (.decode ⟨fmt, q⟩ c) s = .next (s.returning (.decode ⟨fmt, q⟩ c) (.decoded f)) ∧
      ∀ t : State, exec (encodeCall fmt mode f rnd) t = .next (t.returning (encodeCall fmt mode f rnd) (.encoded c))

/-- R159, the two boundary rows: half the smallest subnormal is 0x00 in RNE and the smallest subnormal of its sign in SR
iff the random value is below half; the midpoint of the largest subnormal and the smallest normal is the smallest normal
in RNE. -/
def Obligations.EncodeAtTheSubnormalBoundaries : Prop :=
  ∀ (fmt : Fmt) (sign : Bit) (rnd : Word) (s : State), ∃ half mid : F32,
    f32Sign half = sign ∧ magnitude32 half = ((valF fmt 0x01#8 / 2 : ℚ) : WithTop ℚ) ∧
    f32Sign mid = sign ∧
    magnitude32 mid =
      (((valF fmt (BitVec.ofNat 8 (2 ^ fmt.mb - 1)) + valF fmt (BitVec.ofNat 8 (2 ^ fmt.mb))) / 2 : ℚ) : WithTop ℚ) ∧
    exec (.encodeRne fmt half rnd) s = .next (s.returning (.encodeRne fmt half rnd) (.encoded 0x00#8)) ∧
    exec (.encodeSr fmt half rnd) s = .next (s.returning (.encodeSr fmt half rnd)
      (.encoded (if rnd.toNat % 2 ^ fmt.w0 < 2 ^ (fmt.w0 - 1) then codeJoin sign 1#7 else 0x00#8))) ∧
    exec (.encodeRne fmt mid rnd) s = .next (s.returning (.encodeRne fmt mid rnd)
      (.encoded (codeJoin sign (BitVec.ofNat 7 (2 ^ fmt.mb)))))

/-! ## DECODE -/

/-- R172: decode is exact; it returns +0.0 for 0x00 only, and otherwise a normal float32 whose exponent field lies in the
range of the format. -/
def Obligations.DecodeIsExact : Prop :=
  ∀ (fmt : Fmt) (q : QnanBits) (c : Code) (s : State), c ≠ 0x80#8 →
    ∃ f : F32,
      exec (.decode ⟨fmt, q⟩ c) s = .next (s.returning (.decode ⟨fmt, q⟩ c) (.decoded f)) ∧
      val32 f = .finite (valF fmt c) ∧
      (c = 0x00#8 → f = 0x00000000#32) ∧
      (c ≠ 0x00#8 → f ≠ 0x00000000#32 ∧ (decompose f).cls = .normal ∧
        (fmt = .e4m3 → 117 ≤ (f32Exp f).toNat ∧ (f32Exp f).toNat ≤ 134) ∧
        (fmt = .e5m2 → 110 ≤ (f32Exp f).toNat ∧ (f32Exp f).toNat ≤ 142))

/-- R171, R13: the sentinel decodes to QNAN_BITS, a quiet NaN whatever the open bits of QNAN_BITS are: for every decoder,
so nothing here rests on their value (log 9). -/
def Obligations.DecodeOfTheSentinelIsAQuietNaN : Prop :=
  ∀ (fmt : Fmt) (q : QnanBits) (s : State), ∃ f : F32,
    exec (.decode ⟨fmt, q⟩ 0x80#8) s = .next (s.returning (.decode ⟨fmt, q⟩ 0x80#8) (.decoded f)) ∧
    f32Exp f = 0xFF#8 ∧ f.getLsbD 22 = true ∧ (decompose f).cls.number = 4#3 ∧ val32 f = .notANumber ∧
    f.toNat = q.sign.toNat * 2 ^ 31 + 0xFF * 2 ^ 23 + 2 ^ 22 + q.payload.toNat

/-- R173 and R174: the sign, exponent and mantissa fields of the result, by the fields of the code. -/
def Obligations.DecodeFieldsOfNormalAndSubnormalCodes : Prop :=
  ∀ (fmt : Fmt) (q : QnanBits) (c : Code) (s : State), c ≠ 0x80#8 → c ≠ 0x00#8 →
    ∃ f : F32,
      exec (.decode ⟨fmt, q⟩ c) s = .next (s.returning (.decode ⟨fmt, q⟩ c) (.decoded f)) ∧
      f32Sign f = codeSign c ∧
      (codeExp fmt c ≠ 0 →
        ((f32Exp f).toNat : Int) = (codeExp fmt c : Int) - (fmt.bias : Int) + 127 ∧
        (f32Man f).toNat = codeMan fmt c * 2 ^ fmt.w0) ∧
      (codeExp fmt c = 0 → ∃ p : Nat, p < fmt.mb ∧ 2 ^ p ≤ codeMan fmt c ∧ codeMan fmt c < 2 ^ (p + 1) ∧
        ((f32Exp f).toNat : Int) = (p : Int) + 1 - (fmt.bias : Int) - (fmt.mb : Int) + 127 ∧
        (f32Man f).toNat = (codeMan fmt c - 2 ^ p) * 2 ^ (23 - p))

/-- R175: setting bit 7 of a code other than 0x00 sets bit 31 of the result; 0x00 gives +0.0. -/
def Obligations.DecodeCarriesTheSign : Prop :=
  (∀ (fmt : Fmt) (q : QnanBits) (c : Code) (s : State), c ≠ 0x80#8 → codeSign c = 1#1 →
    ∃ f : F32,
      exec (.decode ⟨fmt, q⟩ (c &&& 0x7F#8)) s = .next (s.returning (.decode ⟨fmt, q⟩ (c &&& 0x7F#8)) (.decoded f)) ∧
      f32Sign f = 0#1 ∧ f ≠ 0x00000000#32 ∧
      exec (.decode ⟨fmt, q⟩ c) s = .next (s.returning (.decode ⟨fmt, q⟩ c) (.decoded (f ||| 0x80000000#32)))) ∧
  (∀ (fmt : Fmt) (q : QnanBits) (s : State),
    exec (.decode ⟨fmt, q⟩ 0x00#8) s = .next (s.returning (.decode ⟨fmt, q⟩ 0x00#8) (.decoded 0x00000000#32)))

/-- R170 applied to all codes: apart from the sentinel, the codes that both formats decode alike are 0x00, 0x40 and 0xC0.
R177 names 0x00, 0x40 and 0x80 and leaves out 0xC0, which R170 takes to −1.0 in both (log 24). -/
def Obligations.FormatsDecodeAlikeOnlyZeroAndPlusMinusOne : Prop :=
  ∀ (q q' : QnanBits) (c : Code) (s : State), c ≠ 0x80#8 →
    ∃ f g : F32,
      exec (.decode ⟨.e4m3, q⟩ c) s = .next (s.returning (.decode ⟨.e4m3, q⟩ c) (.decoded f)) ∧
      exec (.decode ⟨.e5m2, q'⟩ c) s = .next (s.returning (.decode ⟨.e5m2, q'⟩ c) (.decoded g)) ∧
      (f = g ↔ c = 0x00#8 ∨ c = 0x40#8 ∨ c = 0xC0#8)

/-- R201, R176: decoders of one format and equal QNAN_BITS are one; decoders of one format with different QNAN_BITS both
exist, agree on every code but the sentinel, and differ there. -/
def Obligations.DecodersOfOneFormatDifferOnlyAtTheSentinel : Prop :=
  ∀ (fmt : Fmt) (q q' : QnanBits) (c : Code) (s t : State), ∃ f f' : F32,
    exec (.decode ⟨fmt, q⟩ c) s = .next (s.returning (.decode ⟨fmt, q⟩ c) (.decoded f)) ∧
    exec (.decode ⟨fmt, q'⟩ c) t = .next (t.returning (.decode ⟨fmt, q'⟩ c) (.decoded f')) ∧
    (f = f' ↔ c ≠ 0x80#8 ∨ q = q')

/-- R90: CVT is DECODE in format a and then ENCODE.RNE in format b of what it gave, with rnd = 0; the sentinel stays the
sentinel, and within one format every code stays itself. -/
def Obligations.ConvertIsDecodeThenEncode : Prop :=
  ∀ (a b : Fmt) (q : QnanBits) (c : Code) (s : State), ∃ (f : F32) (d : Code),
    (∀ t : State, exec (.decode ⟨a, q⟩ c) t = .next (t.returning (.decode ⟨a, q⟩ c) (.decoded f))) ∧
    (∀ t : State, exec (.encodeRne b f 0#32) t = .next (t.returning (.encodeRne b f 0#32) (.encoded d))) ∧
    cvt ⟨a, q⟩ b c s =
      .next ((s.returning (.decode ⟨a, q⟩ c) (.decoded f)).returning (.encodeRne b f 0#32) (.encoded d)) ∧
    (c = 0x80#8 → d = 0x80#8) ∧ (a = b → d = c)

/-! ## IS_NAN and CONST -/

/-- R180: nan is 1 for the code 0x80 and 0 for every other code. -/
def Obligations.IsNanReportsOnlyTheSentinel : Prop :=
  ∀ (c : Code) (s : State),
    exec (.isNan c) s = .next (s.returning (.isNan c) (.tested (if c = 0x80#8 then 1#1 else 0#1)))

/-- R181, R182: the constants of the two formats; the round-trip bound is the open parameter (log 10). -/
def Obligations.ConstReturnsTheConstants : Prop :=
  ∀ s : State,
    exec (.const .e4m3) s = .next (s.returning (.const .e4m3) (.constants
      { exponentBits := 4, mantissaBits := 3, bias := 8, maxFiniteMagnitude := 0x43700000#32, minSubnormal := 0x01#8,
        minNormal := 0x08#8, maxFinite := 0x7F#8, epsilon := 0x28#8, nan := 0x80#8,
        roundErrorBound := Config.roundErrorConst .e4m3 })) ∧
    exec (.const .e5m2) s = .next (s.returning (.const .e5m2) (.constants
      { exponentBits := 5, mantissaBits := 2, bias := 16, maxFiniteMagnitude := 0x47600000#32, minSubnormal := 0x01#8,
        minNormal := 0x04#8, maxFinite := 0x7F#8, epsilon := 0x38#8, nan := 0x80#8,
        roundErrorBound := Config.roundErrorConst .e5m2 }))

/-- R182: each pattern is what its definition says: the smallest code with a value above 0, the smallest code with e ≠ 0
and s = 0, the largest value, and the distance from 1.0 to the next code's value. -/
def Obligations.ConstPatternsMeetTheirDefinitions : Prop :=
  ∀ (fmt : Fmt) (s : State), ∃ k : FmtConstants,
    exec (.const fmt) s = .next (s.returning (.const fmt) (.constants k)) ∧
    0 < valF fmt k.minSubnormal ∧
    (∀ c : Code, c ≠ 0x80#8 → 0 < valF fmt c → k.minSubnormal.toNat ≤ c.toNat) ∧
    codeExp fmt k.minNormal ≠ 0 ∧ codeSign k.minNormal = 0#1 ∧
    (∀ c : Code, codeExp fmt c ≠ 0 → codeSign c = 0#1 → k.minNormal.toNat ≤ c.toNat) ∧
    (∀ c : Code, c ≠ 0x80#8 → valF fmt c ≤ valF fmt k.maxFinite) ∧
    valF fmt k.maxFinite = maxFiniteValue fmt ∧
    valF fmt k.epsilon = valF fmt 0x41#8 - 1 ∧
    k.nan = 0x80#8

/-- R183: the consistency laws between the constants and the codec. -/
def Obligations.ConstantsAgreeWithTheCodec : Prop :=
  ∀ (fmt : Fmt) (q : QnanBits) (mode : RoundMode) (rnd : Word) (s : State), ∃ (k : FmtConstants) (f : F32),
    exec (.const fmt) s = .next (s.returning (.const fmt) (.constants k)) ∧
    k.maxFiniteMagnitude = fmt.maxBits ∧
    exec (.decode ⟨fmt, q⟩ k.maxFinite) s =
      .next (s.returning (.decode ⟨fmt, q⟩ k.maxFinite) (.decoded k.maxFiniteMagnitude)) ∧
    exec (encodeCall fmt mode k.maxFiniteMagnitude rnd) s =
      .next (s.returning (encodeCall fmt mode k.maxFiniteMagnitude rnd) (.encoded 0x7F#8)) ∧
    exec (.isNan k.nan) s = .next (s.returning (.isNan k.nan) (.tested 1#1)) ∧
    exec (.decode ⟨fmt, q⟩ k.minSubnormal) s = .next (s.returning (.decode ⟨fmt, q⟩ k.minSubnormal) (.decoded f)) ∧
    exec (.encodeRne fmt f rnd) s = .next (s.returning (.encodeRne fmt f rnd) (.encoded 0x01#8)) ∧
    valF fmt k.epsilon = valF fmt (0x40#8 + 1#8) - 1

/-! ## The two value formats -/

/-- R72: among words that are not NaN, the magnitude order is the unsigned order of bits 30:0, infinity on top. -/
def Obligations.MagnitudeOrderIsTheOrderOfBits : Prop :=
  ∀ a b : F32, ¬ (f32Exp a = 0xFF#8 ∧ f32Man a ≠ 0#23) → ¬ (f32Exp b = 0xFF#8 ∧ f32Man b ≠ 0#23) →
    (magnitude32 a < magnitude32 b ↔ (f32Mag a).toNat < (f32Mag b).toNat) ∧
    (magnitude32 a = magnitude32 b ↔ f32Mag a = f32Mag b)

/-- R77: the magnitude code is (e << mb) + m, the value grows strictly with it, and one more is the next larger
magnitude, also where the mantissa field carries into the exponent field. -/
def Obligations.CodeValuesGrowWithTheMagnitudeCode : Prop :=
  ∀ (fmt : Fmt) (c : Code), c ≠ 0x80#8 →
    (codeMag c).toNat = codeExp fmt c * 2 ^ fmt.mb + codeMan fmt c ∧
    (∀ d : Code, d ≠ 0x80#8 → ((codeMag c).toNat < (codeMag d).toNat ↔ |valF fmt c| < |valF fmt d|)) ∧
    ((codeMag c).toNat < 127 → |valF fmt (c + 1#8)| = |valF fmt c| + 2 ^ ((max (codeExp fmt c) 1 : ℤ) - fmt.bias - fmt.mb))

/-- R74, R76: one NaN, 255 finite codes, of which 128 have sign 0 and 127 sign 1, and one zero. -/
def Obligations.CodeClassesAreCounted : Prop :=
  ∀ (fmt : Fmt) (s : State), ∃ nan : Code → Bit,
    (∀ c : Code, exec (.isNan c) s = .next (s.returning (.isNan c) (.tested (nan c)))) ∧
    (Finset.univ.filter (fun c : Code => nan c = 1#1)).card = 1 ∧
    (Finset.univ.filter (fun c : Code => nan c = 0#1 ∧ codeSign c = 0#1)).card = 128 ∧
    (Finset.univ.filter (fun c : Code => nan c = 0#1 ∧ codeSign c = 1#1)).card = 127 ∧
    (∀ c : Code, nan c = 0#1 → (valF fmt c = 0 ↔ c = 0x00#8))
end

