-- ==== Sys2Proof/Laws/Config.lean ====
section
/-! SUPPORT. The numbers of the two FMT records (R11), as rewrite rules, and their bounds for a format not yet known. -/

namespace Sys2Proof

@[simp] theorem Fmt.eb_e4m3 : Fmt.eb .e4m3 = 4 := rfl
@[simp] theorem Fmt.eb_e5m2 : Fmt.eb .e5m2 = 5 := rfl
@[simp] theorem Fmt.mb_e4m3 : Fmt.mb .e4m3 = 3 := rfl
@[simp] theorem Fmt.mb_e5m2 : Fmt.mb .e5m2 = 2 := rfl
@[simp] theorem Fmt.bias_e4m3 : Fmt.bias .e4m3 = 8 := rfl
@[simp] theorem Fmt.bias_e5m2 : Fmt.bias .e5m2 = 16 := rfl
@[simp] theorem Fmt.w0_e4m3 : Fmt.w0 .e4m3 = 20 := rfl
@[simp] theorem Fmt.w0_e5m2 : Fmt.w0 .e5m2 = 21 := rfl
@[simp] theorem Fmt.maxBits_e4m3 : Fmt.maxBits .e4m3 = 0x43700000#32 := rfl
@[simp] theorem Fmt.maxBits_e5m2 : Fmt.maxBits .e5m2 = 0x47600000#32 := rfl

/-- The exponent and mantissa fields fill the magnitude code (R73). -/
theorem Fmt.eb_add_mb (fmt : Fmt) : fmt.eb + fmt.mb = 7 := by cases fmt <;> rfl

theorem Fmt.w0_pos (fmt : Fmt) : 0 < fmt.w0 := by cases fmt <;> decide

theorem Fmt.w0_le (fmt : Fmt) : fmt.w0 ≤ 21 := by cases fmt <;> decide

theorem Fmt.w0_add_mb (fmt : Fmt) : fmt.w0 + fmt.mb = 23 := by cases fmt <;> rfl

theorem Fmt.bias_le (fmt : Fmt) : fmt.bias ≤ 16 := by cases fmt <;> decide

end Sys2Proof
end

