-- ==== Sys2Proof/Laws/Decode.lean ====
section
/-! SUPPORT. Reading the fields of a call word back from the word that was laid out. -/

namespace Sys2Proof

@[simp] theorem RoundMode.ofBit_toBit (m : RoundMode) : RoundMode.ofBit m.toBit = m := by cases m <;> rfl

@[simp] theorem Fmt.ofBit_toBit (f : Fmt) : Fmt.ofBit f.toBit = f := by cases f <;> rfl

@[simp] theorem CodecUnit.ofSelect_toSelect (u : CodecUnit) : CodecUnit.ofSelect u.toSelect = some u := by cases u <;> rfl

@[simp] theorem modeField_packCall (m : Bit) (u : CodecUnit) (f : Bit) (a b : Word) :
    modeField (packCall m u f a b) = m := by
  ext i h
  simp only [modeField, packCall, BitVec.getElem_extractLsb', BitVec.getLsbD_append]
  grind

@[simp] theorem unitField_packCall (m : Bit) (u : CodecUnit) (f : Bit) (a b : Word) :
    unitField (packCall m u f a b) = u.toSelect := by
  ext i h
  simp only [unitField, packCall, BitVec.getElem_extractLsb', BitVec.getLsbD_append]
  grind

@[simp] theorem fmtField_packCall (m : Bit) (u : CodecUnit) (f : Bit) (a b : Word) :
    fmtField (packCall m u f a b) = f := by
  ext i h
  simp only [fmtField, packCall, BitVec.getElem_extractLsb', BitVec.getLsbD_append]
  grind

@[simp] theorem spareField_packCall (m : Bit) (u : CodecUnit) (f : Bit) (a b : Word) :
    spareField (packCall m u f a b) = 0#3 := by
  ext i h
  simp only [spareField, packCall, BitVec.getElem_extractLsb', BitVec.getLsbD_append]
  grind

@[simp] theorem portA_packCall (m : Bit) (u : CodecUnit) (f : Bit) (a b : Word) :
    portA (packCall m u f a b) = a := by
  ext i h
  simp only [portA, packCall, BitVec.getElem_extractLsb', BitVec.getLsbD_append]
  grind

@[simp] theorem portB_packCall (m : Bit) (u : CodecUnit) (f : Bit) (a b : Word) :
    portB (packCall m u f a b) = b := by
  ext i h
  simp only [portB, packCall, BitVec.getElem_extractLsb', BitVec.getLsbD_append]
  grind

/-- The fields of a ROUND call's port word A. -/
theorem roundPorts_fields (keptLsb : Bit) (disc : BitVec 21) (sticky : Bit) :
    (roundPorts keptLsb disc sticky).extractLsb' 0 21 = disc ∧ (roundPorts keptLsb disc sticky).extractLsb' 21 1 = keptLsb ∧
    (roundPorts keptLsb disc sticky).extractLsb' 22 1 = sticky ∧
    (roundPorts keptLsb disc sticky).extractLsb' 23 9 = 0#9 := by
  refine ⟨?_, ?_, ?_, ?_⟩ <;>
    (ext i h; simp only [roundPorts, BitVec.getElem_extractLsb', BitVec.getLsbD_append]; grind)

/-- The fields of the port word A of a call whose one operand is a code. -/
theorem codePort_fields (code : Code) :
    (codePort code).extractLsb' 0 8 = code ∧ (codePort code).extractLsb' 8 24 = 0#24 := by
  refine ⟨?_, ?_⟩ <;> (ext i h; simp only [codePort, BitVec.getElem_extractLsb', BitVec.getLsbD_append]; grind)

/-- The fields of the port word B of a DECODE call. -/
theorem qnanPort_fields (q : QnanBits) :
    readQnan (qnanPort q) = q ∧ (qnanPort q).extractLsb' 23 9 = 0#9 := by
  have hs : (qnanPort q).extractLsb' 22 1 = q.sign := by
    ext i h; simp only [qnanPort, BitVec.getElem_extractLsb', BitVec.getLsbD_append]; grind
  have hp : (qnanPort q).extractLsb' 0 22 = q.payload := by
    ext i h; simp only [qnanPort, BitVec.getElem_extractLsb', BitVec.getLsbD_append]; grind
  refine ⟨by rw [readQnan, hs, hp], ?_⟩
  ext i h; simp only [qnanPort, BitVec.getElem_extractLsb', BitVec.getLsbD_append]; grind

theorem whenZero_eq_ok {unused : Bool} {i j : Instr} : whenZero unused i = .ok j ↔ unused = true ∧ i = j := by
  unfold whenZero
  cases unused <;> simp

end Sys2Proof
end

