-- ==== Sys2Proof/Laws/State.lean ====
section
/-! SUPPORT. One lemma per field of the state per update. -/

namespace Sys2Proof.Machine

@[simp] theorem State.returning_calls (s : State) (i : Instr) (o : Outputs) : (s.returning i o).calls = s.calls := rfl

@[simp] theorem State.returning_returned (s : State) (i : Instr) (o : Outputs) :
    (s.returning i o).returned = { call := i, outputs := o } :: s.returned := rfl

@[simp] theorem State.withCalls_calls (s : State) (c : List CallWord) : (s.withCalls c).calls = c := rfl

@[simp] theorem State.withCalls_returned (s : State) (c : List CallWord) : (s.withCalls c).returned = s.returned := rfl

@[simp] theorem State.withFetchWord_calls (s : State) (nbits w : Nat) :
    (s.withFetchWord nbits w).calls = tableCallWord nbits w :: s.calls := rfl

@[simp] theorem State.withFetchWord_returned (s : State) (nbits w : Nat) :
    (s.withFetchWord nbits w).returned = s.returned := rfl

@[simp] theorem State.reset_calls : State.reset.calls = [] := rfl

@[simp] theorem State.reset_returned : State.reset.returned = [] := rfl

theorem State.returning_withCalls (s : State) (c : List CallWord) (i : Instr) (o : Outputs) :
    (s.withCalls c).returning i o = (s.returning i o).withCalls c := rfl

theorem State.returning_left_inj (s : State) (i j : Instr) (o p : Outputs) :
    s.returning i o = s.returning j p ↔ i = j ∧ o = p := by
  simp [State.returning]

end Sys2Proof.Machine
end

