-- ==== Sys2Proof/Laws/Ops.lean ====
section
/-! SUPPORT. What each shared operation, each meaning and the step can do, said once. -/

namespace Sys2Proof.Machine

theorem answer_eq (i : Instr) (o : Outputs) (s : State) : answer i o s = .next (s.returning i o) := rfl

theorem answerIfDiscFits_of_fits {fmt : Fmt} {disc : BitVec 21} (h : discFits fmt disc = true) (i : Instr) (o : Outputs)
    (s : State) : answerIfDiscFits fmt disc i o s = .next (s.returning i o) := by
  simp [answerIfDiscFits, h, answer]

theorem answerIfDiscFits_of_not {fmt : Fmt} {disc : BitVec 21} (h : discFits fmt disc = false) (i : Instr) (o : Outputs)
    (s : State) : answerIfDiscFits fmt disc i o s = .refused .discOutOfRange := by
  simp [answerIfDiscFits, h]

theorem answerIfDiscFits_eq_next {fmt : Fmt} {disc : BitVec 21} {i : Instr} {o : Outputs} {s t : State}
    (h : answerIfDiscFits fmt disc i o s = .next t) : discFits fmt disc = true ∧ t = s.returning i o := by
  unfold answerIfDiscFits answer at h
  split at h
  · exact ⟨‹_›, by simpa using h.symm⟩
  · cases h

theorem discFits_iff (fmt : Fmt) (disc : BitVec 21) : discFits fmt disc = true ↔ disc.toNat < 2 ^ fmt.w0 := by
  simp [discFits]

/-- Every disc fits the 21-bit port of E5M2FNUZ. -/
theorem discFits_e5m2 (disc : BitVec 21) : discFits .e5m2 disc = true := by
  rw [discFits_iff]
  exact disc.isLt

/-- The RNE decision is one of its two values by the three cases of R124. -/
theorem roundNearest_eq_one_iff (fmt : Fmt) (keptLsb : Bit) (disc : BitVec 21) (sticky : Bit) :
    roundNearest fmt keptLsb disc sticky = 1#1 ↔
      halfDisc fmt < disc.toNat ∨ (disc.toNat = halfDisc fmt ∧ (sticky = 1#1 ∨ keptLsb = 1#1)) := by
  unfold roundNearest
  split
  · simp_all
  · split
    · rename_i h1 h2
      have : ∀ a b : Bit, (a ||| b = 1#1) ↔ (a = 1#1 ∨ b = 1#1) := by decide
      simp [h2, this]
    · simp_all

/-- The SR decision compares the low bits of the random value with disc (R127). -/
theorem roundStochastic_eq_one_iff (fmt : Fmt) (disc : BitVec 21) (rnd : Word) :
    roundStochastic fmt disc rnd = 1#1 ↔ srValue fmt rnd < disc.toNat := by
  unfold roundStochastic
  split <;> simp_all

theorem saturate_le (mag : Nat) : saturate mag ≤ 127 := by
  unfold saturate
  split <;> omega

theorem saturate_of_le {mag : Nat} (h : mag ≤ 127) : saturate mag = mag := by
  unfold saturate
  split <;> omega

theorem packCode_zero (sign : Bit) : packCode sign 0 = zeroCode := rfl

/-- A magnitude from 1 to 127 is packed with the sign above it. -/
theorem packCode_toNat (sign : Bit) {mag : Nat} (h0 : mag ≠ 0) (h : mag ≤ 127) :
    (packCode sign mag).toNat = sign.toNat * 128 + mag := by
  have hm : mag < 2 ^ 7 := by omega
  simp only [packCode, if_neg h0, codeJoin, BitVec.toNat_append, BitVec.toNat_ofNat, Nat.mod_eq_of_lt hm]
  rw [← Nat.shiftLeft_add_eq_or_of_lt hm, Nat.shiftLeft_eq]

theorem step_of_no_call {s : State} (h : s.calls = []) : step s = .next s := by simp [step, h]

theorem step_of_bad_call {s : State} {w : CallWord} {rest : List CallWord} {r : CallReject} (h : s.calls = w :: rest)
    (hd : Sys2Proof.decode w = .error r) : step s = .refused (.notACall r) := by simp [step, h, hd]

theorem steps_zero (s : State) : steps 0 s = .next s := rfl

theorem steps_succ_next {n : Nat} {s t : State} (h : step s = .next t) : steps (n + 1) s = steps n t := by
  simp [steps, h]

theorem callAll_nil (s : State) : callAll [] s = .next s := rfl

theorem callAll_cons_next {i : Instr} {rest : List Instr} {s t : State} (h : exec i s = .next t) :
    callAll (i :: rest) s = callAll rest t := by simp [callAll, h]

end Sys2Proof.Machine
end

