-- ==== Sys2Proof/Laws/PerInstr.lean ====
section
/-! SUPPORT. Per-instruction family TableRow: the word of a call meets the match and mask of its row of
opcode_table.json over the mode port, and names its unit (R82, R85). -/

namespace Sys2Proof.Laws.TableRow

def Statement (i : Instr) : Prop :=
  (modeField (encode i)).toNat &&& (tableRow i).2 = (tableRow i).1 ∧ unitField (encode i) = i.unit.toSelect

/-- A call laid out with its own unit and a mode its row matches. -/
theorem of_packCall {i : Instr} {mode fmt : Bit} {a b : Word} {value mask : Nat}
    (he : encode i = packCall mode i.unit fmt a b) (hr : tableRow i = (value, mask))
    (hm : mode.toNat &&& mask = value) : Statement i := by
  simp [Statement, he, hr, hm]

theorem decompose (f : F32) : Statement (.decompose f) :=
  of_packCall rfl rfl (by decide)

theorem compose (sign : Bit) (exp : BitVec 8) (man : BitVec 23) : Statement (.compose sign exp man) :=
  of_packCall rfl rfl (by decide)

theorem roundRne (fmt : Fmt) (keptLsb : Bit) (disc : BitVec 21) (sticky : Bit) (rnd : Word) :
    Statement (.roundRne fmt keptLsb disc sticky rnd) :=
  of_packCall rfl rfl (by decide)

theorem roundSr (fmt : Fmt) (keptLsb : Bit) (disc : BitVec 21) (sticky : Bit) (rnd : Word) :
    Statement (.roundSr fmt keptLsb disc sticky rnd) :=
  of_packCall rfl rfl (by decide)

theorem encodeRne (fmt : Fmt) (x : F32) (rnd : Word) : Statement (.encodeRne fmt x rnd) :=
  of_packCall rfl rfl (by decide)

theorem encodeSr (fmt : Fmt) (x : F32) (rnd : Word) : Statement (.encodeSr fmt x rnd) :=
  of_packCall rfl rfl (by decide)

theorem decode (params : DecoderParams) (code : Code) : Statement (.decode params code) :=
  of_packCall rfl rfl (by decide)

theorem isNan (code : Code) : Statement (.isNan code) :=
  of_packCall rfl rfl (by decide)

theorem const (fmt : Fmt) : Statement (.const fmt) :=
  of_packCall rfl rfl (by decide)

end Sys2Proof.Laws.TableRow
end

