-- ==== Sys2Proof/Tests/Slice0.lean ====
section
/-! SUPPORT. Tests: words written out from the layout, one or two vectors of 95_test_vectors.md per operation (their ids
stand in the comments), the ill-formed terms, and for each statement with hypotheses a term that meets them. -/

namespace Sys2Proof.Tests

open Sys2Proof Sys2Proof.Machine

/-- The outputs of the call that a step has just made. -/
def outputsOf (o : Host.Outcome State Fault Refusal) : Option Outputs :=
  match o with
  | .next s => s.returned.head?.map Completed.outputs
  | .fault _ => none
  | .refused _ => none

/-- The QNAN_BITS 0x7FC00000 that R13 suggests. -/
def defaultQnan : QnanBits := { sign := 0#1, payload := 0#22 }

/-! ## WellFormed -/

theorem test_wf_refuses_wide_disc_rne : (Instr.roundRne .e4m3 0#1 0x100000#21 0#1 0#32).wf = false := by decide

theorem test_wf_refuses_wide_disc_sr : (Instr.roundSr .e4m3 0#1 0x1FFFFF#21 0#1 0#32).wf = false := by decide

theorem test_wf_accepts_widest_disc :
    (Instr.roundRne .e4m3 0#1 0x0FFFFF#21 0#1 0#32).wf = true ∧ (Instr.roundSr .e5m2 0#1 0x1FFFFF#21 0#1 0#32).wf = true := by
  decide

theorem test_exec_refuses_wide_disc :
    exec (.roundSr .e4m3 0#1 0x100000#21 0#1 0#32) State.reset = .refused .discOutOfRange := rfl

/-! ## Decoding: bit 0 is the mode port (R82), the rest is the layout of log 2 -/

theorem test_decode_encodeRne : (decode 0x000000003F80000000#72).toOption = some (.encodeRne .e4m3 0x3F800000#32 0#32) := by
  decide

theorem test_decode_encodeSr : (decode 0x000FFFFF3F90000011#72).toOption = some (.encodeSr .e5m2 0x3F900000#32 0xFFFFF#32) := by
  decide

theorem test_decode_roundRne :
    (decode 0x000000000028000002#72).toOption = some (.roundRne .e4m3 1#1 0x80000#21 0#1 0#32) := by decide

theorem test_decode_roundSr :
    (decode 0xFFE000000050000013#72).toOption = some (.roundSr .e5m2 0#1 0x100000#21 1#1 0xFFE00000#32) := by decide

theorem test_decode_decode : (decode 0x00400001000000FF14#72).toOption = some (.decode ⟨.e5m2, ⟨1#1, 1#22⟩⟩ 0xFF#8) := by
  decide

theorem test_decode_isNan : (decode 0x000000000000008006#72).toOption = some (.isNan 0x80#8) := by decide

theorem test_decode_const : (decode 0x000000000000000018#72).toOption = some (.const .e5m2) := by decide

theorem test_decode_decompose : (decode 0x00000000FFC123450A#72).toOption = some (.decompose 0xFFC12345#32) := by decide

theorem test_decode_compose : (decode 0x00000186007000000C#72).toOption = some (.compose 1#1 0x86#8 0x700000#23) := by decide

theorem test_decode_rejects :
    decode 0x00000000000000000E#72 = .error .unknownUnit ∧ decode 0x000000000000000020#72 = .error .unusedBits ∧
    decode 0x00000000000000000B#72 = .error .unusedBits ∧ decode 0x000000000010000002#72 = .error .discOutOfRange :=
  ⟨rfl, rfl, rfl, rfl⟩

theorem test_table_words : decodeTableWord 8 0 = some (.encodeRne .e4m3 0#32 0#32) ∧
    decodeTableWord 8 1 = some (.encodeSr .e4m3 0#32 0#32) := by decide

theorem test_step_runs_table_word :
    outputsOf (step (State.reset.withFetchWord 8 1)) = some (.encoded 0x00#8) := by decide

/-! ## One step of each operation -/

/-- BV-13 -/
theorem test_decompose_nan : outputsOf (exec (.decompose 0xFFFFFFFF#32) State.reset) =
    some (.decomposed 1#1 0xFF#8 0x7FFFFF#23 4#3) := by decide

/-- BV-06 -/
theorem test_decompose_subnormal : outputsOf (exec (.decompose 0x807FFFFF#32) State.reset) =
    some (.decomposed 1#1 0x00#8 0x7FFFFF#23 1#3) := by decide

/-- BV-14 -/
theorem test_compose_minus_240 : outputsOf (exec (.compose 1#1 0x86#8 0x700000#23) State.reset) =
    some (.composed 0xC3700000#32) := by decide

/-- R106: exp = 0x100 is refused -/
theorem test_compose_ints_refuses : composeInts 0 0x100 0 State.reset = .refused .tripleOutOfRange := rfl

/-- RD4-06 -/
theorem test_round_rne_sticky : outputsOf (exec (.roundRne .e4m3 0#1 0x80000#21 1#1 0#32) State.reset) =
    some (.rounded 1#1) := by decide

/-- RD5-01 -/
theorem test_round_rne_tie_even : outputsOf (exec (.roundRne .e5m2 0#1 0x100000#21 0#1 0#32) State.reset) =
    some (.rounded 0#1) := by decide

/-- RD4-14 -/
theorem test_round_sr_equal : outputsOf (exec (.roundSr .e4m3 0#1 0x80000#21 1#1 0x80000#32) State.reset) =
    some (.rounded 0#1) := by decide

/-- RD5-07 -/
theorem test_round_sr_high_bits : outputsOf (exec (.roundSr .e5m2 0#1 0x100000#21 0#1 0xFFE00000#32) State.reset) =
    some (.rounded 1#1) := by decide

/-- E4-22 (C1) -/
theorem test_encode_rne_sticky : outputsOf (exec (.encodeRne .e4m3 0x3B900001#32 0#32) State.reset) =
    some (.encoded 0x05#8) := by decide

/-- E5-24 -/
theorem test_encode_rne_carry : outputsOf (exec (.encodeRne .e5m2 0x43700000#32 0#32) State.reset) =
    some (.encoded 0x60#8) := by decide

/-- E4S-17 -/
theorem test_encode_sr_no_sticky : outputsOf (exec (.encodeSr .e4m3 0x3B900001#32 0x80000#32) State.reset) =
    some (.encoded 0x04#8) := by decide

/-- E5S-08 -/
theorem test_encode_sr_carry : outputsOf (exec (.encodeSr .e5m2 0x37E00000#32 0#32) State.reset) =
    some (.encoded 0x04#8) := by decide

/-- R91, code 0x05 of E4M3FNUZ with bit 7 set, and code 0x5F of E5M2FNUZ -/
theorem test_decode_finite :
    outputsOf (exec (.decode ⟨.e4m3, defaultQnan⟩ 0x85#8) State.reset) = some (.decoded 0xBBA00000#32) ∧
    outputsOf (exec (.decode ⟨.e5m2, defaultQnan⟩ 0x5F#8) State.reset) = some (.decoded 0x43600000#32) := by decide

/-- 95_test_vectors.md P5, step 5: the default QNAN_BITS, and 0xFFC12345 for another instance (R201) -/
theorem test_decode_sentinel : fp8Decode .e4m3 defaultQnan 0x80#8 = 0x7FC00000#32 ∧
    fp8Decode .e4m3 ⟨1#1, 0x012345#22⟩ 0x80#8 = 0xFFC12345#32 := by decide

/-- IN-01, IN-05 -/
theorem test_is_nan : outputsOf (exec (.isNan 0x80#8) State.reset) = some (.tested 1#1) ∧
    outputsOf (exec (.isNan 0x81#8) State.reset) = some (.tested 0#1) := by decide

/-- CO-01, CO-02 -/
theorem test_const_epsilon : (fmtConstants .e4m3).epsilon = 0x28#8 ∧ (fmtConstants .e5m2).epsilon = 0x38#8 ∧
    (fmtConstants .e4m3).minNormal = 0x08#8 ∧ (fmtConstants .e5m2).minNormal = 0x04#8 := by decide

/-! ## Witnesses: terms that meet the hypotheses of the statements -/

/-- StepRunsTheDecodedCall: a queue of two words, the first of which decodes. -/
theorem witness_step_decodes : ∃ (s : State) (w : CallWord) (rest : List CallWord) (i : Instr),
    s.calls = w :: rest ∧ rest ≠ [] ∧ decode w = .ok i :=
  ⟨{ calls := [0x000000000000008006#72, 0x18#72], returned := [] }, 0x000000000000008006#72, [0x18#72], .isNan 0x80#8,
    rfl, by decide, rfl⟩

/-- StepWithoutACall, both clauses. -/
theorem witness_step_without_call :
    State.reset.calls = [] ∧ ∃ (s : State) (w : CallWord) (rest : List CallWord) (r : CallReject),
      s.calls = w :: rest ∧ decode w = .error r :=
  ⟨rfl, { calls := [0x0E#72], returned := [] }, 0x0E#72, [], .unknownUnit, rfl, rfl⟩

/-- StepRunsThePlacedTableWord. -/
theorem witness_table_word : decodeTableWord 8 1 = some (.encodeSr .e4m3 0#32 0#32) := by decide

/-- DecodeOfEncodeIsTheCall, EveryCallCompletes (first clause), OutputsAreAFunctionOfTheInputs: the widest disc. -/
theorem witness_wf : (Instr.roundSr .e4m3 1#1 0xFFFFF#21 1#1 0xFFFFFFFF#32).wf = true := by decide

/-- EveryCallCompletes, second clause: the narrowest disc that does not fit. -/
theorem witness_not_wf : (Instr.roundRne .e4m3 0#1 0x100000#21 0#1 0#32).wf = false := by decide

/-- EncodeOfDecodeIsTheWord. -/
theorem witness_decodes : decode 0x00000186007000000C#72 = .ok (.compose 1#1 0x86#8 0x700000#23) := rfl

/-- EveryCallChangesOnlyTheRecord. -/
theorem witness_exec_next : ∃ t, exec (.const .e5m2) State.reset = .next t := ⟨_, rfl⟩

/-- BatchIsLanewise: two lanes; the lane at index 1 has outputs. -/
theorem witness_batch : ∀ i ∈ [Instr.decode ⟨.e4m3, defaultQnan⟩ 0x4D#8, Instr.isNan 0x80#8], i.wf = true := by decide

/-- BatchOrderChangesNoOutput: two different orders of the same well-formed calls. -/
theorem witness_batch_order :
    [Instr.decode ⟨.e4m3, defaultQnan⟩ 0x4D#8, Instr.isNan 0x80#8].Perm [Instr.isNan 0x80#8, Instr.decode ⟨.e4m3, defaultQnan⟩ 0x4D#8] ∧
    ∀ i ∈ [Instr.decode ⟨.e4m3, defaultQnan⟩ 0x4D#8, Instr.isNan 0x80#8], i.wf = true :=
  ⟨List.Perm.swap _ _ _, witness_batch⟩

/-- StepsMakeTheQueuedCallsInOrder: program P1 (95_test_vectors.md) is well formed and runs. -/
theorem witness_program :
    (∀ i ∈ [Instr.decode ⟨.e4m3, defaultQnan⟩ 0x4D#8, .encodeRne .e4m3 0x40500000#32 0#32, .encodeSr .e4m3 0x40500000#32 0xFFFFFFFF#32],
      i.wf = true) ∧
    ∃ t, callAll [.decode ⟨.e4m3, defaultQnan⟩ 0x4D#8, .encodeRne .e4m3 0x40500000#32 0#32, .encodeSr .e4m3 0x40500000#32 0xFFFFFFFF#32]
      State.reset = .next t := ⟨by decide, _, rfl⟩

/-- StepKeepsTheRecordSound: a sound state with an earlier record and a call pending, which steps to a next state. -/
theorem witness_sound : ∃ s t : State, s.Sound ∧ s.returned ≠ [] ∧ step s = .next t ∧ t.returned ≠ s.returned :=
  ⟨{ calls := [0x000000000000008006#72], returned := [{ call := .isNan 0x00#8, outputs := .tested 0#1 }] }, _,
    by intro r h; simp at h; subst h; exact ⟨rfl, by simp [outputsLegal]⟩, by decide, rfl, by decide⟩

/-- DecomposeReturnsFieldsAndClass: one word in each of the five classes, at the edges of the normal class. -/
theorem witness_classes :
    (f32Exp 0x80000000#32 = 0x00#8 ∧ f32Man 0x80000000#32 = 0#23) ∧
    (f32Exp 0x00000001#32 = 0x00#8 ∧ f32Man 0x00000001#32 ≠ 0#23) ∧
    (f32Exp 0x00800000#32 = 0x01#8 ∧ f32Exp 0x7F7FFFFF#32 = 0xFE#8) ∧
    (f32Exp 0xFF800000#32 = 0xFF#8 ∧ f32Man 0xFF800000#32 = 0#23) ∧
    (f32Exp 0x7F800001#32 = 0xFF#8 ∧ f32Man 0x7F800001#32 ≠ 0#23) := by decide

/-- ComposeOfIntegersRefusesAnIllegalTriple: each bound just missed, and the largest legal triple. -/
theorem witness_triples : (-1 : Int) < 0 ∧ (1 : Int) < 2 ∧ (255 : Int) < 256 ∧ (2 ^ 23 : Int) ≤ 8388608 ∧
    ((0 : Int) ≤ 1 ∧ (1 : Int) ≤ 1 ∧ (255 : Int) ≤ 255 ∧ (8388607 : Int) < 2 ^ 23) := by decide

/-- The ROUND statements: disc below, at and above half, 0 and the maximum, in both formats. -/
theorem witness_disc :
    (0x7FFFF#21).toNat < 2 ^ (Fmt.w0 .e4m3 - 1) ∧ (0x80000#21).toNat = 2 ^ (Fmt.w0 .e4m3 - 1) ∧
    2 ^ (Fmt.w0 .e4m3 - 1) < (0x80001#21).toNat ∧ (0xFFFFF#21).toNat < 2 ^ Fmt.w0 .e4m3 ∧
    (0x1FFFFF#21).toNat < 2 ^ Fmt.w0 .e5m2 ∧ (0x0#21).toNat < 2 ^ Fmt.w0 .e5m2 := by decide

/-- RoundRneRoundsToNearestEven, second clause: an exact tie over 23 bits and the value just above it. -/
theorem witness_whole_field : 2 * 0x400000 = 2 ^ (Fmt.w0 .e4m3 + 3) ∧ 0x400001 < 2 ^ (Fmt.w0 .e4m3 + 3) := by decide

/-- RoundSrAtTheEndsOfTheRange: the three clauses. -/
theorem witness_sr_ends : (0xFFF00000#32).toNat % 2 ^ Fmt.w0 .e4m3 = 0 ∧
    (0x000FFFFF#32).toNat % 2 ^ Fmt.w0 .e4m3 = 2 ^ Fmt.w0 .e4m3 - 1 := by decide

/-- RoundRefusesADiscWiderThanItsPort, first clause: the narrowest and the widest such disc. -/
theorem witness_wide_disc : 2 ^ 20 ≤ (0x100000#21).toNat ∧ 2 ^ 20 ≤ (0x1FFFFF#21).toNat := by decide

/-- EncodeOfNaNIsTheSentinel: a quiet and a signalling NaN, of either sign. -/
theorem witness_nan : (f32Exp 0xFFC12345#32 = 0xFF#8 ∧ f32Man 0xFFC12345#32 ≠ 0#23) ∧
    (f32Exp 0x7F800001#32 = 0xFF#8 ∧ f32Man 0x7F800001#32 ≠ 0#23) := by decide

/-- The ENCODE statements about words that are not NaN: zero, a subnormal, a normal word and infinity. -/
theorem witness_not_nan :
    ¬ (f32Exp 0x80000000#32 = 0xFF#8 ∧ f32Man 0x80000000#32 ≠ 0#23) ∧
    ¬ (f32Exp 0x00000001#32 = 0xFF#8 ∧ f32Man 0x00000001#32 ≠ 0#23) ∧
    ¬ (f32Exp 0x7F7FFFFF#32 = 0xFF#8 ∧ f32Man 0x7F7FFFFF#32 ≠ 0#23) ∧
    ¬ (f32Exp 0xFF800000#32 = 0xFF#8 ∧ f32Man 0xFF800000#32 ≠ 0#23) := by decide

theorem finite32_240 : finite32 0x43700000#32 = 240 := by
  have h1 : f32Exp 0x43700000#32 = 0x86#8 := by decide
  have h2 : f32Man 0x43700000#32 = 0x700000#23 := by decide
  have h3 : f32Sign 0x43700000#32 = 0#1 := by decide
  rw [finite32, if_neg (by rw [h1]; decide), h1, h2, h3]
  norm_num [signFactor]

/-- ClipIsTheMagnitudeClip and EncodeSaturatesAtMax: infinity is above MAX, and MAX itself is at MAX. -/
theorem witness_above_and_at_max :
    (maxFiniteValue .e4m3 : WithTop ℚ) < magnitude32 0x7F800000#32 ∧
    (maxFiniteValue .e4m3 : WithTop ℚ) ≤ magnitude32 0x43700000#32 ∧
    magnitude32 0x43700000#32 ≤ (maxFiniteValue .e4m3 : WithTop ℚ) := by
  have h1 : (decompose 0x7F800000#32).cls = .inf := by decide
  have h2 : (decompose 0x43700000#32).cls ≠ .inf := by decide
  have h3 : magnitude32 0x43700000#32 = ((240 : ℚ) : WithTop ℚ) := by
    rw [magnitude32, if_neg h2, finite32_240]
    norm_num
  rw [h3, magnitude32, if_pos h1]
  exact ⟨WithTop.coe_lt_top _, le_refl _, le_refl _⟩

theorem valF_min_e4m3 : valF .e4m3 0x01#8 = 1 / 1024 := by
  have h1 : codeExp .e4m3 0x01#8 = 0 := by decide
  have h2 : codeMan .e4m3 0x01#8 = 1 := by decide
  have h3 : codeSign 0x01#8 = 0#1 := by decide
  rw [valF, if_pos h1, h2, h3]
  norm_num [signFactor, Fmt.mb, Fmt.bias, Fmt.config]

/-- EncodeHasOneZero, last clause: half the smallest subnormal itself (E4-19). -/
theorem witness_half_subnormal : magnitude32 0x3A000000#32 = ((valF .e4m3 0x01#8 / 2 : ℚ) : WithTop ℚ) := by
  have h0 : (decompose 0x3A000000#32).cls ≠ .inf := by decide
  have h1 : f32Exp 0x3A000000#32 = 0x74#8 := by decide
  have h2 : f32Man 0x3A000000#32 = 0x0#23 := by decide
  have h3 : f32Sign 0x3A000000#32 = 0#1 := by decide
  rw [magnitude32, if_neg h0, valF_min_e4m3]
  rw [finite32, if_neg (by rw [h1]; decide), h1, h2, h3]
  norm_num [signFactor]

/-- EncodeHasOneZero, third clause: a word whose code has magnitude 0 (E4-30). -/
theorem witness_zero_magnitude : codeMag (fp8Encode .e4m3 0xB9800000#32 .rne 0#32) = 0#7 ∧ f32Mag 0x80000000#32 = 0#31 := by
  decide

/-- EncodeOfFloatSubnormalsIsZero: the largest subnormal of sign 1. -/
theorem witness_float_subnormal : f32Exp 0x807FFFFF#32 = 0x00#8 ∧ f32Man 0x807FFFFF#32 ≠ 0#23 := by decide

/-- EncodeKeepsTheSign: a negative input with a code other than 0x00. -/
theorem witness_sign : fp8Encode .e4m3 0xBF880000#32 .sr 0#32 ≠ 0x00#8 := by decide

theorem clippedValue_17_16 : clippedValue .e4m3 0x3F880000#32 = 17 / 16 := by
  have h0 : (decompose 0x3F880000#32).cls = .normal := by decide
  have h1 : f32Exp 0x3F880000#32 = 0x7F#8 := by decide
  have h2 : f32Man 0x3F880000#32 = 0x080000#23 := by decide
  have h3 : f32Sign 0x3F880000#32 = 0#1 := by decide
  have hf : finite32 0x3F880000#32 = 17 / 16 := by
    rw [finite32, if_neg (by rw [h1]; decide), h1, h2, h3]
    norm_num [signFactor]
  simp only [clippedValue, val32, h0, hf, maxFiniteValue]
  norm_num

theorem valF_one_and_next : valF .e4m3 0x40#8 = 1 ∧ valF .e4m3 0x41#8 = 9 / 8 := by
  have e0 : codeExp .e4m3 0x40#8 = 8 := by decide
  have m0 : codeMan .e4m3 0x40#8 = 0 := by decide
  have s0 : codeSign 0x40#8 = 0#1 := by decide
  have e1 : codeExp .e4m3 0x41#8 = 8 := by decide
  have m1 : codeMan .e4m3 0x41#8 = 1 := by decide
  have s1 : codeSign 0x41#8 = 0#1 := by decide
  rw [valF, if_neg (by rw [e0]; decide), e0, m0, s0, valF, if_neg (by rw [e1]; decide), e1, m1, s1]
  norm_num [signFactor, Fmt.mb, Fmt.bias, Fmt.config]

/-- EncodeRneIsCorrectlyRounded, tie clause: 1.0625 lies halfway between the codes 0x40 and 0x41 (E4-16). -/
theorem witness_tie : fp8Encode .e4m3 0x3F880000#32 .rne 0#32 = 0x40#8 ∧ (0x41#8 : Code) ≠ 0x40#8 ∧
    |valF .e4m3 0x40#8 - clippedValue .e4m3 0x3F880000#32| = |valF .e4m3 0x41#8 - clippedValue .e4m3 0x3F880000#32| := by
  refine ⟨by decide, by decide, ?_⟩
  rw [clippedValue_17_16, valF_one_and_next.1, valF_one_and_next.2]
  norm_num

/-- EncodeSrMeanIsTheClippedInputButForSticky: a word with sticky = 0 and a word with sticky = 1 (E4-23, E4-22). -/
theorem witness_sticky : stickyField .e4m3 (clip .e4m3 0x3B900000#32) = 0#1 ∧
    stickyField .e4m3 (clip .e4m3 0x3B900001#32) = 1#1 := by decide

/-- The DECODE statements: a normal, a subnormal and the last code, none of them the sentinel. -/
theorem witness_codes : (0xFF#8 : Code) ≠ 0x80#8 ∧ codeSign 0xFF#8 = 1#1 ∧ codeExp .e5m2 0x04#8 ≠ 0 ∧
    codeExp .e5m2 0x83#8 = 0 ∧ (0x83#8 : Code) ≠ 0x00#8 := by decide

/-- CodeValuesGrowWithTheMagnitudeCode: the carry from the largest subnormal, and the last code below 127. -/
theorem witness_magnitude_code : (codeMag 0x07#8).toNat < 127 ∧ (codeMag 0xFE#8).toNat < 127 := by decide

end Sys2Proof.Tests
end

section
/-! PROOF. The step when no call can be made (00_scope.md R21, 30_encoding.md §4). -/

namespace Sys2Proof.Proofs.Scope

open Sys2Proof Sys2Proof.Machine

/-- Settles O2: the two ways a step can find no call are the laws `step_of_no_call` and `step_of_bad_call`. -/
theorem stepWithoutACall : Obligations.StepWithoutACall := by
  unfold Obligations.StepWithoutACall
  constructor
  · intro s hempty
    exact step_of_no_call hempty
  · intro s w rest r hcalls hreject
    exact step_of_bad_call hcalls hreject

end Sys2Proof.Proofs.Scope
end

section
/-! PROOF. The caller's queue of call words (10_state.md §2, §5, 30_encoding.md §4). -/

namespace Sys2Proof.Proofs.CallQueue

open Sys2Proof Sys2Proof.Machine

/-! ## A laid-out call word decodes to its call -/

/-- A laid-out word has zero spare bits and names its unit, so its unit's reader decodes it. -/
theorem decode_packCall (mode : Bit) (u : CodecUnit) (fmt : Bit) (a b : Word) :
    decode (packCall mode u fmt a b) = decodeUnit u (packCall mode u fmt a b) := by
  simp [decode]

/-- The fields of the port word A of a COMPOSE call. -/
theorem composePortA_fields (man : BitVec 23) :
    (0#9 ++ man).extractLsb' 0 23 = man ∧ (0#9 ++ man).extractLsb' 23 9 = 0#9 :=
  ⟨BitVec.extractLsb'_append_eq_right, BitVec.extractLsb'_append_eq_left⟩

/-- The fields of the port word B of a COMPOSE call. -/
theorem composePortB_fields (sign : Bit) (exp : BitVec 8) :
    (0#23 ++ sign ++ exp).extractLsb' 8 1 = sign ∧ (0#23 ++ sign ++ exp).extractLsb' 0 8 = exp ∧
    (0#23 ++ sign ++ exp).extractLsb' 9 23 = 0#23 := by
  refine ⟨?_, BitVec.extractLsb'_append_eq_right, ?_⟩ <;>
    rw [BitVec.extractLsb'_append_eq_of_le (by decide)]
  · exact BitVec.extractLsb'_append_eq_right
  · exact BitVec.extractLsb'_append_eq_left

/-- The word of a call that its ports can carry decodes to that call. -/
theorem decode_encode {i : Instr} (hwf : i.wf = true) : decode (encode i) = .ok i := by
  cases i with
  | decompose f => simp [encode, decode_packCall, decodeUnit, whenZero]
  | compose sign exp man =>
    simp [encode, decode_packCall, decodeUnit, whenZero, composePortA_fields, composePortB_fields]
  | roundRne fmt keptLsb disc sticky rnd =>
    simp [encode, decode_packCall, decodeUnit, whenZero, readRound, roundPorts_fields, hwf]
  | roundSr fmt keptLsb disc sticky rnd =>
    simp [encode, decode_packCall, decodeUnit, whenZero, readRound, roundPorts_fields, hwf]
  | encodeRne fmt x rnd => simp [encode, decode_packCall, decodeUnit, readEncode]
  | encodeSr fmt x rnd => simp [encode, decode_packCall, decodeUnit, readEncode]
  | decode params code =>
    simp [encode, decode_packCall, decodeUnit, whenZero, codePort_fields, qnanPort_fields]
  | isNan code => simp [encode, decode_packCall, decodeUnit, whenZero, codePort_fields]
  | const fmt => simp [encode, decode_packCall, decodeUnit, whenZero]

/-! ## What a call gives back -/

/-- The output port values of a call; they depend on its operands alone (R40, R54). -/
def callOutputs : Instr → Outputs
  | .decompose f => .decomposed (f32Sign f) (f32Exp f) (f32Man f) (classify (f32Exp f) (f32Man f)).number
  | .compose sign exp man => .composed (compose sign exp man)
  | .roundRne fmt keptLsb disc sticky rnd => .rounded (roundDecide fmt keptLsb disc sticky .rne rnd)
  | .roundSr fmt keptLsb disc sticky rnd => .rounded (roundDecide fmt keptLsb disc sticky .sr rnd)
  | .encodeRne fmt x rnd => .encoded (fp8Encode fmt x .rne rnd)
  | .encodeSr fmt x rnd => .encoded (fp8Encode fmt x .sr rnd)
  | .decode params code => .decoded (fp8Decode params.fmt params.qnan code)
  | .isNan code => .tested (isSentinel code)
  | .const fmt => .constants (fmtConstants fmt)

/-- A call that its ports can carry completes with its outputs, whatever the state. -/
theorem exec_of_wf {i : Instr} (hwf : i.wf = true) (s : State) : exec i s = .next (s.returning i (callOutputs i)) := by
  cases i with
  | roundRne => exact answerIfDiscFits_of_fits hwf _ _ s
  | roundSr => exact answerIfDiscFits_of_fits hwf _ _ s
  | decompose | compose | encodeRne | encodeSr | decode | isNan | const => exact answer_eq _ _ s

/-- Settles O9: the one function is `callOutputs`, whose arguments leave the state out. -/
theorem outputsAreAFunctionOfTheInputs : Obligations.OutputsAreAFunctionOfTheInputs := by
  unfold Obligations.OutputsAreAFunctionOfTheInputs
  exact ⟨callOutputs, fun _ hwf s => exec_of_wf hwf s⟩

/-! ## The steps over queued words -/

theorem step_of_call {s : State} {w : CallWord} {rest : List CallWord} {i : Instr} (hcalls : s.calls = w :: rest)
    (hdecode : decode w = .ok i) : step s = exec i (s.withCalls rest) := by
  simp [step, hcalls, hdecode]

/-- Settles O1: it is the law `step_of_call`, with the queue's update written out. -/
theorem stepRunsTheDecodedCall : Obligations.StepRunsTheDecodedCall := by
  unfold Obligations.StepRunsTheDecodedCall
  intro s w rest i hcalls hdecode
  exact step_of_call hcalls hdecode

/-- With the word of a call in front of the queue, a step records that call and leaves the words behind it. -/
theorem step_queued_word {i : Instr} (hwf : i.wf = true) (s : State) (rest : List CallWord) :
    step (s.withCalls (encode i :: rest)) = .next ((s.returning i (callOutputs i)).withCalls rest) := by
  calc step (s.withCalls (encode i :: rest))
      = exec i (s.withCalls rest) := step_of_call rfl (decode_encode hwf)
    _ = .next ((s.withCalls rest).returning i (callOutputs i)) := exec_of_wf hwf _
    _ = .next ((s.returning i (callOutputs i)).withCalls rest) := by rw [State.returning_withCalls]

/-- Settles O12, by induction on the program: its first call is one step, which leaves the later words queued. -/
theorem stepsMakeTheQueuedCallsInOrder : Obligations.StepsMakeTheQueuedCallsInOrder := by
  unfold Obligations.StepsMakeTheQueuedCallsInOrder
  intro program s t hwf hall
  induction program generalizing s with
  | nil => exact hall
  | cons i rest ih =>
    obtain ⟨hi, hrest⟩ := List.forall_mem_cons.mp hwf
    rw [callAll_cons_next (exec_of_wf hi s)] at hall
    calc steps (rest.length + 1) (s.withCalls (encode i :: (rest.map encode ++ s.calls)))
        = steps rest.length ((s.returning i (callOutputs i)).withCalls (rest.map encode ++ s.calls)) :=
          steps_succ_next (step_queued_word hi s _)
      _ = .next t := ih (s.returning i (callOutputs i)) hrest hall

end Sys2Proof.Proofs.CallQueue
end

section
/-! PROOF. What a call changes and what a batch records (20_memory.md §1 R54, §2 R56, R57). -/

namespace Sys2Proof.Proofs.Batch

open Sys2Proof Sys2Proof.Machine Sys2Proof.Proofs.CallQueue

/-! ## What a call that completes can have done -/

/-- A call completes only if its ports can carry it: a rounding whose disc is too wide is refused (log 17). -/
theorem wf_of_exec_eq_next {i : Instr} {s t : State} (hexec : exec i s = .next t) : i.wf = true := by
  cases i with
  | roundRne => exact (answerIfDiscFits_eq_next hexec).1
  | roundSr => exact (answerIfDiscFits_eq_next hexec).1
  | decompose | compose | encodeRne | encodeSr | decode | isNan | const => rfl

/-- A call that completes has recorded its outputs and done nothing else. -/
theorem eq_returning_of_exec_eq_next {i : Instr} {s t : State} (hexec : exec i s = .next t) :
    t = s.returning i (callOutputs i) := by
  rw [exec_of_wf (wf_of_exec_eq_next hexec) s] at hexec
  exact (Host.Outcome.next.inj hexec).symm

/-- Settles O8: the next state is the old one with the call recorded, so its two fields are read off. -/
theorem everyCallChangesOnlyTheRecord : Obligations.EveryCallChangesOnlyTheRecord := by
  unfold Obligations.EveryCallChangesOnlyTheRecord
  intro i s t hexec
  rw [eq_returning_of_exec_eq_next hexec]
  exact ⟨State.returning_calls s i _, callOutputs i, State.returning_returned s i _⟩

/-! ## The state after a batch -/

/-- The record entry of a call; like `callOutputs` it depends on the call alone. -/
def completion (i : Instr) : Completed := { call := i, outputs := callOutputs i }

/-- `s` with the calls of a batch recorded, the last one in front. -/
def afterBatch (lanes : List Instr) (s : State) : State :=
  { calls := s.calls, returned := (lanes.map completion).reverse ++ s.returned }

theorem afterBatch_cons (i : Instr) (rest : List Instr) (s : State) :
    afterBatch (i :: rest) s = afterBatch rest (s.returning i (callOutputs i)) := by
  simp [afterBatch, completion]

/-- A batch of calls that their ports can carry completes and records each call's own entry, in order. -/
theorem callAll_of_wf {lanes : List Instr} (hwf : ∀ i ∈ lanes, i.wf = true) (s : State) :
    callAll lanes s = .next (afterBatch lanes s) := by
  induction lanes generalizing s with
  | nil => exact callAll_nil s
  | cons i rest ih =>
    obtain ⟨hi, hrest⟩ := List.forall_mem_cons.mp hwf
    rw [callAll_cons_next (exec_of_wf hi s), ih hrest, afterBatch_cons]

/-- Pairing each call with its outputs gives the entries of the record. -/
theorem zipWith_callOutputs (lanes : List Instr) :
    List.zipWith Completed.mk lanes (lanes.map callOutputs) = lanes.map completion := by
  rw [List.zipWith_map_right, List.zipWith_self]
  rfl

/-- Settles O10: the outputs of each lane are its `callOutputs`, which the lane's call gives in any state. -/
theorem batchIsLanewise : Obligations.BatchIsLanewise := by
  unfold Obligations.BatchIsLanewise
  intro lanes hwf s
  refine ⟨lanes.map callOutputs, List.length_map callOutputs, ?_, ?_⟩
  · rw [zipWith_callOutputs]
    exact callAll_of_wf hwf s
  · intro k i o hlane hout u
    have ho : callOutputs i = o := by simpa [hlane] using hout
    rw [← ho]
    exact exec_of_wf (hwf i (List.mem_of_getElem? hlane)) u

/-- Permuting the lanes permutes the record: no entry depends on the lane's place. -/
theorem afterBatch_returned_perm {lanes lanes' : List Instr} (hperm : lanes.Perm lanes') (s : State) :
    (afterBatch lanes s).returned.Perm (afterBatch lanes' s).returned :=
  have hentries : (lanes.map completion).reverse.Perm (lanes'.map completion).reverse :=
    ((List.reverse_perm _).trans (hperm.map completion)).trans (List.reverse_perm _).symm
  hentries.append_right s.returned

/-- Settles O11: both orders complete, with the same entries in permuted order. -/
theorem batchOrderChangesNoOutput : Obligations.BatchOrderChangesNoOutput := by
  unfold Obligations.BatchOrderChangesNoOutput
  intro lanes lanes' s hperm hwf
  have hwf' : ∀ i ∈ lanes', i.wf = true := fun i hi => hwf i (hperm.mem_iff.mpr hi)
  exact ⟨afterBatch lanes s, afterBatch lanes' s, callAll_of_wf hwf s, callAll_of_wf hwf' s, rfl, rfl,
    afterBatch_returned_perm hperm s⟩

end Sys2Proof.Proofs.Batch
end

section
/-! PROOF. The magnitude field of a float32 word and of a code orders the magnitudes (30_encoding.md R72, R77). Both
orders are one: the magnitude grows by one unit in the last place with each step of the field. -/

namespace Sys2Proof.Proofs.MagnitudeOrder

open Sys2Proof Sys2Proof.Machine

/-! ## The magnitude a field of bits stands for, in any binary format with subnormals -/

/-- One unit in the last place at the magnitude field `n`: the subnormals share the one of exponent field 1. -/
def ulp (mb bias n : Nat) : ℚ := 2 ^ ((max (n / 2 ^ mb : Nat) 1 : ℤ) - bias - mb)

/-- The significand of the magnitude field `n`, in units in the last place. -/
def fieldSignificand (mb n : Nat) : Nat := (if n / 2 ^ mb = 0 then 0 else 2 ^ mb) + n % 2 ^ mb

/-- The magnitude whose exponent field stands above `mb` bits of mantissa field in `n` (R71, R78). -/
def fieldMagnitude (mb bias n : Nat) : ℚ := fieldSignificand mb n * ulp mb bias n

theorem ulp_pos (mb bias n : Nat) : 0 < ulp mb bias n := by
  unfold ulp
  positivity

theorem fieldMagnitude_subnormal {mb n : Nat} (bias : Nat) (hexp : n / 2 ^ mb = 0) :
    fieldMagnitude mb bias n = (n % 2 ^ mb : Nat) / 2 ^ mb * 2 ^ (1 - (bias : ℤ)) := by
  simp only [fieldMagnitude, fieldSignificand, ulp, hexp, if_true, zero_add, Nat.cast_zero,
    max_eq_right zero_le_one]
  rw [zpow_sub₀ two_ne_zero _ (mb : ℤ), zpow_natCast]
  ring

theorem fieldMagnitude_normal {mb n : Nat} (bias : Nat) (hexp : n / 2 ^ mb ≠ 0) :
    fieldMagnitude mb bias n = (1 + (n % 2 ^ mb : Nat) / 2 ^ mb) * 2 ^ ((n / 2 ^ mb : Nat) - (bias : ℤ)) := by
  have hmax : max ((n / 2 ^ mb : Nat) : ℤ) 1 = (n / 2 ^ mb : Nat) :=
    max_eq_left (by exact_mod_cast Nat.one_le_iff_ne_zero.mpr hexp)
  simp only [fieldMagnitude, fieldSignificand, ulp, if_neg hexp, hmax]
  rw [zpow_sub₀ two_ne_zero, zpow_natCast]
  push_cast
  field_simp

/-- Where the mantissa field does not carry, one more step is one more unit. -/
theorem fieldMagnitude_succ_of_no_carry {mb n : Nat} (bias : Nat) (hman : n % 2 ^ mb + 1 < 2 ^ mb) :
    fieldMagnitude mb bias (n + 1) = fieldMagnitude mb bias n + ulp mb bias n := by
  obtain ⟨hdiv, hmod⟩ : (n + 1) / 2 ^ mb = n / 2 ^ mb ∧ (n + 1) % 2 ^ mb = n % 2 ^ mb + 1 := by
    rw [Nat.div_mod_unique (by positivity)]
    have hn := Nat.mod_add_div n (2 ^ mb)
    omega
  simp only [fieldMagnitude, fieldSignificand, ulp, hdiv, hmod]
  push_cast
  ring

/-- A carry puts 0 in the mantissa field and one more in the exponent field: from the subnormals the unit stays and the
implicit bit appears, from any other exponent field the unit doubles. -/
theorem fieldMagnitude_succ_of_carry {mb n : Nat} (bias : Nat) (hman : n % 2 ^ mb + 1 = 2 ^ mb) :
    fieldMagnitude mb bias (n + 1) = fieldMagnitude mb bias n + ulp mb bias n := by
  obtain ⟨hdiv, hmod⟩ : (n + 1) / 2 ^ mb = n / 2 ^ mb + 1 ∧ (n + 1) % 2 ^ mb = 0 := by
    rw [Nat.div_mod_unique (by positivity), Nat.mul_add]
    have hn := Nat.mod_add_div n (2 ^ mb)
    omega
  have hunits : ((n % 2 ^ mb : Nat) : ℚ) + 1 = 2 ^ mb := by exact_mod_cast hman
  simp only [fieldMagnitude, fieldSignificand, ulp, hdiv, hmod]
  by_cases hexp : n / 2 ^ mb = 0
  · simp only [hexp, if_true, zero_add, one_ne_zero, if_false, add_zero, Nat.cast_zero, Nat.cast_one, max_self,
      max_eq_right zero_le_one, Nat.cast_pow, Nat.cast_ofNat]
    linear_combination (-1 : ℚ) * 2 ^ (1 - (bias : ℤ) - mb) * hunits
  · have hle : 1 ≤ ((n / 2 ^ mb : Nat) : ℤ) := by exact_mod_cast Nat.one_le_iff_ne_zero.mpr hexp
    have hdouble : max ((n / 2 ^ mb + 1 : Nat) : ℤ) 1 - bias - mb = ((n / 2 ^ mb : Nat) : ℤ) - bias - mb + 1 := by
      rw [Nat.cast_add_one, max_eq_left (by omega)]
      ring
    rw [hdouble, max_eq_left hle, zpow_add_one₀ two_ne_zero, if_neg hexp, if_neg (Nat.succ_ne_zero _)]
    simp only [Nat.cast_add, Nat.cast_pow, Nat.cast_ofNat, Nat.cast_zero]
    linear_combination (-1 : ℚ) * 2 ^ (((n / 2 ^ mb : Nat) : ℤ) - bias - mb) * hunits

/-- One more in the field adds one unit in the last place, also across a carry (R77). -/
theorem fieldMagnitude_succ (mb bias n : Nat) :
    fieldMagnitude mb bias (n + 1) = fieldMagnitude mb bias n + ulp mb bias n := by
  have hlt : n % 2 ^ mb < 2 ^ mb := Nat.mod_lt _ (by positivity)
  rcases Nat.lt_or_eq_of_le (Nat.succ_le_of_lt hlt) with hman | hman
  · exact fieldMagnitude_succ_of_no_carry bias hman
  · exact fieldMagnitude_succ_of_carry bias hman

theorem fieldMagnitude_strictMono (mb bias : Nat) : StrictMono (fieldMagnitude mb bias) :=
  strictMono_nat_of_lt_succ fun n => by
    rw [fieldMagnitude_succ]
    exact lt_add_of_pos_right _ (ulp_pos mb bias n)

theorem fieldMagnitude_nonneg (mb bias n : Nat) : 0 ≤ fieldMagnitude mb bias n :=
  mul_nonneg (Nat.cast_nonneg _) (ulp_pos mb bias n).le

theorem fieldMagnitude_zero (mb bias : Nat) : fieldMagnitude mb bias 0 = 0 := by
  simp [fieldMagnitude, fieldSignificand]

theorem abs_signFactor (sign : Bit) : |signFactor sign| = 1 := by
  unfold signFactor
  split <;> simp

/-! ## Float32 words -/

theorem f32Exp_toNat (x : F32) : (f32Exp x).toNat = (f32Mag x).toNat / 2 ^ 23 := by
  simp only [f32Exp, f32Mag, BitVec.extractLsb'_toNat, Nat.shiftRight_eq_div_pow]
  omega

theorem f32Man_toNat (x : F32) : (f32Man x).toNat = (f32Mag x).toNat % 2 ^ 23 := by
  simp only [f32Man, f32Mag, BitVec.extractLsb'_toNat, Nat.shiftRight_eq_div_pow]
  omega

/-- The magnitude of a float32 word, its class aside, is that of its magnitude field. -/
theorem abs_finite32 (x : F32) : |finite32 x| = fieldMagnitude 23 127 (f32Mag x).toNat := by
  rw [← abs_of_nonneg (fieldMagnitude_nonneg 23 127 (f32Mag x).toNat)]
  have hzero : f32Exp x = 0x00#8 ↔ (f32Mag x).toNat / 2 ^ 23 = 0 := by
    rw [← f32Exp_toNat, ← BitVec.toNat_inj]; rfl
  by_cases hexp : f32Exp x = 0x00#8
  · rw [finite32, if_pos hexp, fieldMagnitude_subnormal _ (hzero.mp hexp), f32Man_toNat, mul_assoc, abs_mul,
      abs_signFactor, one_mul]
    norm_num
  · rw [finite32, if_neg hexp, fieldMagnitude_normal _ (hzero.not.mp hexp), f32Exp_toNat, f32Man_toNat, mul_assoc,
      abs_mul, abs_signFactor, one_mul]
    norm_num

theorem cls_eq_inf_iff (x : F32) : (decompose x).cls = .inf ↔ f32Exp x = 0xFF#8 ∧ f32Man x = 0#23 := by
  simp only [decompose, classify]
  split_ifs <;> simp_all

/-- A word that is not NaN has at most the magnitude field of infinity, and that field is infinity's alone. -/
theorem f32Mag_le_of_not_nan {x : F32} (hx : ¬ (f32Exp x = 0xFF#8 ∧ f32Man x ≠ 0#23)) :
    (f32Mag x).toNat ≤ 0x7F800000 ∧ ((decompose x).cls = .inf ↔ (f32Mag x).toNat = 0x7F800000) := by
  rw [cls_eq_inf_iff]
  have hlt := (f32Mag x).isLt
  simp only [ne_eq, ← BitVec.toNat_inj, f32Exp_toNat, f32Man_toNat, BitVec.toNat_ofNat] at hx ⊢
  omega

/-- Among words that are not NaN the magnitude is ordered as the magnitude field (R72). -/
theorem magnitude32_lt_iff {a b : F32} (ha : ¬ (f32Exp a = 0xFF#8 ∧ f32Man a ≠ 0#23))
    (hb : ¬ (f32Exp b = 0xFF#8 ∧ f32Man b ≠ 0#23)) :
    magnitude32 a < magnitude32 b ↔ (f32Mag a).toNat < (f32Mag b).toNat := by
  obtain ⟨hale, hainf⟩ := f32Mag_le_of_not_nan ha
  obtain ⟨hble, hbinf⟩ := f32Mag_le_of_not_nan hb
  unfold magnitude32
  by_cases ia : (decompose a).cls = .inf
  · rw [if_pos ia]
    have hatop := hainf.mp ia
    simp only [not_top_lt, false_iff]
    omega
  by_cases ib : (decompose b).cls = .inf
  · rw [if_neg ia, if_pos ib]
    have hbtop := hbinf.mp ib
    have hafinite := hainf.not.mp ia
    simp only [WithTop.coe_lt_top, true_iff]
    omega
  · rw [if_neg ia, if_neg ib, WithTop.coe_lt_coe, abs_finite32, abs_finite32]
    exact (fieldMagnitude_strictMono 23 127).lt_iff_lt

/-- Settles O48: the order is `magnitude32_lt_iff`, and magnitudes are equal when neither is below the other. -/
theorem magnitudeOrderIsTheOrderOfBits : Obligations.MagnitudeOrderIsTheOrderOfBits := by
  unfold Obligations.MagnitudeOrderIsTheOrderOfBits
  intro a b ha hb
  have hlt := magnitude32_lt_iff ha hb
  have hgt := magnitude32_lt_iff hb ha
  refine ⟨hlt, ?_⟩
  rw [← BitVec.toNat_inj, eq_iff_le_not_lt, eq_iff_le_not_lt, ← not_lt, ← not_lt, hlt, hgt]

/-! ## Codes -/

/-- The exponent field of a code is its magnitude code without the `mb` bits of mantissa field (R73, R77). -/
theorem codeExp_eq (fmt : Fmt) (c : Code) : codeExp fmt c = (codeMag c).toNat / 2 ^ fmt.mb :=
  Nat.shiftRight_eq_div_pow _ _

theorem codeMag_toNat (c : Code) : (codeMag c).toNat = c.toNat % 2 ^ 7 := by
  simp [codeMag, BitVec.extractLsb'_toNat]

theorem codeMan_eq (fmt : Fmt) (c : Code) : codeMan fmt c = (codeMag c).toNat % 2 ^ fmt.mb := by
  have hdvd : 2 ^ fmt.mb ∣ 2 ^ 7 := Nat.pow_dvd_pow 2 (by have := fmt.eb_add_mb; omega)
  rw [codeMan, codeMag_toNat, Nat.mod_mod_of_dvd _ hdvd]

/-- The magnitude code is the exponent field above the mantissa field (R77). -/
theorem codeMag_eq (fmt : Fmt) (c : Code) :
    (codeMag c).toNat = codeExp fmt c * 2 ^ fmt.mb + codeMan fmt c := by
  rw [codeExp_eq, codeMan_eq, Nat.div_add_mod']

/-- The magnitude of a code's value is that of its magnitude code. -/
theorem abs_valF (fmt : Fmt) (c : Code) : |valF fmt c| = fieldMagnitude fmt.mb fmt.bias (codeMag c).toNat := by
  rw [← abs_of_nonneg (fieldMagnitude_nonneg fmt.mb fmt.bias (codeMag c).toNat)]
  unfold valF
  rw [codeExp_eq, codeMan_eq]
  by_cases hexp : (codeMag c).toNat / 2 ^ fmt.mb = 0
  · rw [if_pos hexp, fieldMagnitude_subnormal _ hexp, mul_assoc, abs_mul, abs_signFactor, one_mul]
  · rw [if_neg hexp, fieldMagnitude_normal _ hexp, mul_assoc, abs_mul, abs_signFactor, one_mul]

/-- Below the last magnitude code, adding 1 to a code adds 1 to its magnitude code. -/
theorem codeMag_add_one {c : Code} (hc : (codeMag c).toNat < 127) :
    (codeMag (c + 1#8)).toNat = (codeMag c).toNat + 1 := by
  rw [codeMag_toNat] at hc ⊢
  rw [codeMag_toNat, BitVec.toNat_add, BitVec.toNat_ofNat]
  omega

/-- Settles O49: the magnitude is `fieldMagnitude` of the magnitude code, which is strictly increasing and grows by one
unit in the last place with each step. -/
theorem codeValuesGrowWithTheMagnitudeCode : Obligations.CodeValuesGrowWithTheMagnitudeCode := by
  unfold Obligations.CodeValuesGrowWithTheMagnitudeCode
  intro fmt c _
  refine ⟨codeMag_eq fmt c, fun d _ => ?_, fun hc => ?_⟩
  · rw [abs_valF, abs_valF]
    exact (fieldMagnitude_strictMono fmt.mb fmt.bias).lt_iff_lt.symm
  · rw [abs_valF, abs_valF, codeMag_add_one hc, fieldMagnitude_succ, ulp, ← codeExp_eq]

end Sys2Proof.Proofs.MagnitudeOrder
end

section
/-! PROOF. The classes of the codes are counted (30_encoding.md R74, R76), and the port that carries a ROUND call's
disc (R81). -/

namespace Sys2Proof.Proofs.CodeClasses

open Sys2Proof Sys2Proof.Machine Sys2Proof.Proofs.CallQueue Sys2Proof.Proofs.MagnitudeOrder

/-! ## A code is its sign and its magnitude code -/

theorem codeJoin_codeSign_codeMag (c : Code) : codeJoin (codeSign c) (codeMag c) = c :=
  BitVec.extractLsb'_append_extractLsb'

@[simp] theorem codeSign_codeJoin (sign : Bit) (mag : BitVec 7) : codeSign (codeJoin sign mag) = sign :=
  BitVec.extractLsb'_append_eq_left

@[simp] theorem codeMag_codeJoin (sign : Bit) (mag : BitVec 7) : codeMag (codeJoin sign mag) = mag :=
  BitVec.extractLsb'_append_eq_right

/-- Without the sentinel, the code of magnitude 0 is 0x00 (R74). -/
theorem codeMag_eq_zero_iff {c : Code} (hc : c ≠ nanCode) : codeMag c = 0#7 ↔ c = zeroCode := by
  constructor
  · intro hmag
    rw [← codeJoin_codeSign_codeMag c, hmag] at hc ⊢
    obtain hsign | hsign : codeSign c = 0#1 ∨ codeSign c = 1#1 := by
      generalize codeSign c = sign
      decide +revert
    · rw [hsign]; rfl
    · rw [hsign] at hc; exact absurd rfl hc
  · rintro rfl
    rfl

/-- The value is 0 for 0x00 alone: the magnitude grows from 0 with the magnitude code (R74, R77). -/
theorem valF_eq_zero_iff (fmt : Fmt) {c : Code} (hc : c ≠ nanCode) : valF fmt c = 0 ↔ c = zeroCode := by
  rw [← abs_eq_zero, abs_valF, ← fieldMagnitude_zero fmt.mb fmt.bias,
    (fieldMagnitude_strictMono fmt.mb fmt.bias).injective.eq_iff, ← codeMag_eq_zero_iff hc, ← BitVec.toNat_inj]
  rfl

/-! ## The counts -/

/-- There are as many codes of one sign as magnitude codes. -/
theorem card_codeSign_eq (sign : Bit) : (Finset.univ.filter fun c : Code => codeSign c = sign).card = 128 := by
  have himage : (Finset.univ.filter fun c : Code => codeSign c = sign) = Finset.univ.image (codeJoin sign) := by
    ext c
    simp only [Finset.mem_filter, Finset.mem_univ, true_and, Finset.mem_image]
    constructor
    · rintro rfl
      exact ⟨codeMag c, codeJoin_codeSign_codeMag c⟩
    · rintro ⟨mag, rfl⟩
      exact codeSign_codeJoin sign mag
  have hinj : Function.Injective (codeJoin sign) := fun m n h => by simpa using congrArg codeMag h
  rw [himage, Finset.card_image_of_injective _ hinj, Finset.card_univ, ← FinEnum.card_eq_fintypeCard,
    FinEnum.card_bitVec]
  rfl

theorem isSentinel_eq_one_iff (c : Code) : isSentinel c = 1#1 ↔ c = nanCode := by
  unfold isSentinel
  split <;> simp_all

theorem isSentinel_eq_zero_iff (c : Code) : isSentinel c = 0#1 ↔ c ≠ nanCode := by
  unfold isSentinel
  split <;> simp_all

theorem filter_isSentinel : (Finset.univ.filter fun c : Code => isSentinel c = 1#1) = {nanCode} := by
  ext c
  simp [isSentinel_eq_one_iff]

/-- The codes of one sign but for the sentinel, which is a code of sign 1. -/
theorem filter_not_nan_codeSign (sign : Bit) :
    (Finset.univ.filter fun c : Code => isSentinel c = 0#1 ∧ codeSign c = sign) =
      (Finset.univ.filter fun c : Code => codeSign c = sign).erase nanCode := by
  ext c
  simp [isSentinel_eq_zero_iff]

/-- Settles O50: 128 codes have each sign, and the sentinel is one of those of sign 1. -/
theorem codeClassesAreCounted : Obligations.CodeClassesAreCounted := by
  unfold Obligations.CodeClassesAreCounted
  intro fmt s
  have hsign : codeSign nanCode = 1#1 := rfl
  refine ⟨isSentinel, fun c => exec_of_wf rfl s, ?_, ?_, ?_, fun c hc => ?_⟩
  · rw [filter_isSentinel, Finset.card_singleton]
  · rw [filter_not_nan_codeSign, Finset.erase_eq_of_notMem (by simp [hsign]), card_codeSign_eq]
  · rw [filter_not_nan_codeSign, Finset.card_erase_of_mem (by simp [hsign]), card_codeSign_eq]
  · exact valF_eq_zero_iff fmt ((isSentinel_eq_zero_iff c).mp hc)

/-! ## The port of disc -/

theorem discFits_e4m3_of_ge {disc : BitVec 21} (hdisc : 2 ^ 20 ≤ disc.toNat) : discFits .e4m3 disc = false := by
  rw [Bool.eq_false_iff, ne_eq, discFits_iff, Fmt.w0_e4m3]
  exact hdisc.not_gt

/-- Settles O23: the disc fits its port or does not, and both modes answer by that alone. -/
theorem roundRefusesADiscWiderThanItsPort : Obligations.RoundRefusesADiscWiderThanItsPort := by
  unfold Obligations.RoundRefusesADiscWiderThanItsPort
  constructor
  · intro keptLsb disc sticky rnd s hdisc
    have hwide := discFits_e4m3_of_ge hdisc
    exact ⟨answerIfDiscFits_of_not hwide _ _ s, answerIfDiscFits_of_not hwide _ _ s⟩
  · intro keptLsb disc sticky rnd s
    have hfits := discFits_e5m2 disc
    exact ⟨_, _, answerIfDiscFits_of_fits hfits _ _ s, answerIfDiscFits_of_fits hfits _ _ s⟩

end Sys2Proof.Proofs.CodeClasses
end

section
/-! PROOF. CVT is DECODE and then ENCODE.RNE (30_encoding.md R90). Within one format the second undoes the first: what
DECODE gives back is a multiple of the step at its place, so ENCODE discards only zeros. -/

namespace Sys2Proof.Proofs.Convert

open Sys2Proof Sys2Proof.Machine Sys2Proof.Proofs.CallQueue Sys2Proof.Proofs.MagnitudeOrder
  Sys2Proof.Proofs.CodeClasses

/-! ## The fields of a composed float32 -/

@[simp] theorem f32Sign_compose (sign : Bit) (exp : BitVec 8) (man : BitVec 23) :
    f32Sign (compose sign exp man) = sign := by
  rw [f32Sign, compose, f32Join, BitVec.append_assoc, BitVec.extractLsb'_cast]
  exact BitVec.extractLsb'_append_eq_left

@[simp] theorem f32Exp_compose (sign : Bit) (exp : BitVec 8) (man : BitVec 23) :
    f32Exp (compose sign exp man) = exp := by
  rw [f32Exp, compose, f32Join, BitVec.extractLsb'_append_eq_of_le (by decide)]
  exact BitVec.extractLsb'_append_eq_right

@[simp] theorem f32Man_compose (sign : Bit) (exp : BitVec 8) (man : BitVec 23) :
    f32Man (compose sign exp man) = man :=
  BitVec.extractLsb'_append_eq_right

/-- The magnitude field is the exponent field above the mantissa field (R70, R72). -/
theorem f32Mag_toNat (x : F32) : (f32Mag x).toNat = (f32Exp x).toNat * 2 ^ 23 + (f32Man x).toNat := by
  rw [f32Exp_toNat, f32Man_toNat, Nat.div_add_mod']

theorem cls_of_exp_ne {x : F32} (h0 : f32Exp x ≠ 0x00#8) (h255 : f32Exp x ≠ 0xFF#8) :
    (decompose x).cls = .normal := by
  simp [decompose, classify, h0, h255]

/-- R171: whatever its open bits, QNAN_BITS is a NaN, because bit 22 is set. -/
theorem cls_qnanWord (q : QnanBits) : (decompose (qnanWord q)).cls = .nan := by
  have hexp : f32Exp (qnanWord q) = 0xFF#8 := by
    rw [f32Exp, qnanWord, BitVec.extractLsb'_append_eq_of_le (by decide),
      BitVec.extractLsb'_append_eq_of_le (by decide)]
    exact BitVec.extractLsb'_append_eq_right
  have hquiet : (f32Man (qnanWord q)).getLsbD 22 = true := by
    simp only [f32Man, qnanWord, BitVec.getLsbD_extractLsb', BitVec.getLsbD_append]
    rfl
  have hman : f32Man (qnanWord q) ≠ 0#23 := fun h => by simp [h] at hquiet
  simp [decompose, classify, hexp, hman]

/-! ## The fields that DECODE gives back -/

theorem codeExp_lt (fmt : Fmt) (c : Code) : codeExp fmt c < 2 ^ fmt.eb := by
  rw [codeExp_eq, Nat.div_lt_iff_lt_mul (by positivity), ← pow_add, fmt.eb_add_mb]
  exact (codeMag c).isLt

theorem codeMan_lt (fmt : Fmt) (c : Code) : codeMan fmt c < 2 ^ fmt.mb :=
  Nat.mod_lt _ (by positivity)

/-- A mantissa field other than 0 has its highest 1 bit at `highestOne`. -/
theorem highestOne_spec {m : Nat} (h0 : m ≠ 0) (h8 : m < 8) :
    2 ^ highestOne m ≤ m ∧ m < 2 ^ (highestOne m + 1) := by
  unfold highestOne
  split_ifs <;> omega

/-- R173: a normal code keeps its fields, the exponent rebiased. -/
theorem fp8Decode_normal {fmt : Fmt} (q : QnanBits) {c : Code} (hc : c ≠ nanCode) (hexp : codeExp fmt c ≠ 0) :
    f32Sign (fp8Decode fmt q c) = codeSign c ∧
    (f32Exp (fp8Decode fmt q c)).toNat = codeExp fmt c + 127 - fmt.bias ∧
    (f32Man (fp8Decode fmt q c)).toNat = codeMan fmt c * 2 ^ fmt.w0 := by
  have hexpLt : codeExp fmt c + 127 - fmt.bias < 2 ^ 8 := by
    have hexpLt := codeExp_lt fmt c
    have hbias : 2 ^ fmt.eb + 127 - fmt.bias < 2 ^ 8 := by cases fmt <;> decide
    omega
  have hmanLt : codeMan fmt c * 2 ^ fmt.w0 < 2 ^ 23 := by
    calc codeMan fmt c * 2 ^ fmt.w0 < 2 ^ fmt.mb * 2 ^ fmt.w0 := by gcongr; exact codeMan_lt fmt c
      _ = 2 ^ 23 := by rw [← pow_add, add_comm, fmt.w0_add_mb]
  rw [fp8Decode, if_neg hc, if_neg (by simp [hexp]), if_neg hexp, decodeNormal, Nat.shiftLeft_eq]
  simpa using ⟨hexpLt, hmanLt⟩

/-- The highest 1 bit of a subnormal code lies in its mantissa field. -/
theorem highestOne_codeMan {fmt : Fmt} {c : Code} (hman : codeMan fmt c ≠ 0) :
    highestOne (codeMan fmt c) < fmt.mb ∧ 2 ^ highestOne (codeMan fmt c) ≤ codeMan fmt c ∧
    codeMan fmt c < 2 ^ (highestOne (codeMan fmt c) + 1) := by
  have hlt := codeMan_lt fmt c
  have hmb : fmt.mb ≤ 3 := by cases fmt <;> decide
  obtain ⟨hle, hlt'⟩ := highestOne_spec hman (hlt.trans_le (Nat.pow_le_pow_right two_pos hmb))
  exact ⟨(Nat.pow_lt_pow_iff_right one_lt_two).mp (hle.trans_lt hlt), hle, hlt'⟩

/-- R174: a subnormal code is renormalised around its highest 1 bit. -/
theorem fp8Decode_subnormal {fmt : Fmt} (q : QnanBits) {c : Code} (hc : c ≠ nanCode) (hexp : codeExp fmt c = 0)
    (hman : codeMan fmt c ≠ 0) :
    f32Sign (fp8Decode fmt q c) = codeSign c ∧
    (f32Exp (fp8Decode fmt q c)).toNat = highestOne (codeMan fmt c) + 1 + 127 - fmt.bias - fmt.mb ∧
    (f32Man (fp8Decode fmt q c)).toNat =
      (codeMan fmt c - 2 ^ highestOne (codeMan fmt c)) * 2 ^ (23 - highestOne (codeMan fmt c)) := by
  obtain ⟨hp, hle, hlt⟩ := highestOne_codeMan hman
  rw [fp8Decode, if_neg hc, if_neg (by simp [hman]), if_pos hexp, decodeSubnormal, Nat.shiftLeft_eq]
  generalize highestOne (codeMan fmt c) = p at hp hle hlt ⊢
  have hmb := fmt.w0_add_mb
  have hexpLt : p + 1 + 127 - fmt.bias - fmt.mb < 2 ^ 8 := by omega
  have hmanLt : (codeMan fmt c - 2 ^ p) * 2 ^ (23 - p) < 2 ^ 23 := by
    calc (codeMan fmt c - 2 ^ p) * 2 ^ (23 - p) < 2 ^ p * 2 ^ (23 - p) := by gcongr; omega
      _ = 2 ^ 23 := by rw [← pow_add]; congr 1; omega
  simpa using ⟨hexpLt, hmanLt⟩

/-! ## ENCODE of a multiple of the step -/

/-- With nothing discarded both modes keep the magnitude: half of the range is above 0, and no random value is below. -/
theorem roundDecide_zero (fmt : Fmt) (keptLsb : Bit) (mode : RoundMode) (rnd : Word) :
    roundDecide fmt keptLsb 0#21 0#1 mode rnd = 0#1 := by
  have hhalf : 0 < halfDisc fmt := by unfold halfDisc; positivity
  cases mode with
  | rne => simp [roundDecide, roundNearest, hhalf.ne]
  | sr => simp [roundDecide, roundStochastic]

section
variable {fmt : Fmt} {x : F32} {kept : Nat}

variable (hsig : significand x = kept * 2 ^ (fmt.w0 + subnormalShift fmt x))
include hsig

theorem keptField_of_multiple : keptField fmt x = kept := by
  rw [keptField, hsig, Nat.shiftRight_eq_div_pow, Nat.mul_div_cancel _ (by positivity)]

theorem discField_of_multiple : discField fmt x = 0#21 := by
  rw [discField, hsig, Nat.shiftRight_eq_div_pow, pow_add, ← mul_assoc, Nat.mul_div_cancel _ (by positivity),
    Nat.mul_mod_left]

theorem stickyField_of_multiple : stickyField fmt x = 0#1 := by
  rw [stickyField, stickyOf, hsig, pow_add, ← mul_assoc, Nat.mul_mod_left]
  rfl

/-- A significand that is a multiple of the step is not rounded. -/
theorem roundedMagnitude_of_multiple (mode : RoundMode) (rnd : Word) :
    roundedMagnitude fmt x mode rnd =
      exponentField fmt x * 2 ^ fmt.mb + if 1 ≤ targetExponent fmt x then kept - 2 ^ fmt.mb else kept := by
  rw [roundedMagnitude, roundUp, discField_of_multiple hsig, stickyField_of_multiple hsig, roundDecide_zero,
    Nat.shiftLeft_eq, mantissaField, keptField_of_multiple hsig]
  rfl

end

theorem packCode_codeMag (sign : Bit) {mag : BitVec 7} (hmag : mag ≠ 0#7) :
    packCode sign mag.toNat = codeJoin sign mag := by
  have h0 : mag.toNat ≠ 0 := fun h => hmag (BitVec.eq_of_toNat_eq h)
  rw [packCode, if_neg h0, BitVec.ofNat_toNat, BitVec.setWidth_eq]

/-- MAX has the largest exponent field and mantissa field of a code (R11). -/
theorem f32Mag_maxBits (fmt : Fmt) :
    (f32Mag fmt.maxBits).toNat = (2 ^ fmt.eb - 1 + 127 - fmt.bias) * 2 ^ 23 + (2 ^ fmt.mb - 1) * 2 ^ fmt.w0 := by
  cases fmt <;> rfl

/-- A word up to MAX whose exponent field is not 0 is normal. -/
theorem cls_eq_normal_of_le_maxBits {fmt : Fmt} {x : F32} (hexp : (f32Exp x).toNat ≠ 0)
    (hle : (f32Mag x).toNat ≤ (f32Mag fmt.maxBits).toNat) : (decompose x).cls = .normal := by
  have hmax : (f32Mag fmt.maxBits).toNat < 255 * 2 ^ 23 := by cases fmt <;> decide
  rw [f32Mag_toNat] at hle
  refine cls_of_exp_ne (fun h => hexp (by rw [h]; rfl)) (fun h => ?_)
  have hexp255 : (f32Exp x).toNat = 255 := by rw [h]; rfl
  omega

/-- A word up to MAX, not zero or subnormal, whose magnitude rounds to that of a code with its sign encodes as the
code. -/
theorem fp8Encode_of_roundedMagnitude {fmt : Fmt} {x : F32} {c : Code} {mode : RoundMode} {rnd : Word}
    (hexp : (f32Exp x).toNat ≠ 0) (hle : (f32Mag x).toNat ≤ (f32Mag fmt.maxBits).toNat)
    (hsign : f32Sign x = codeSign c) (hmag : codeMag c ≠ 0#7)
    (hround : roundedMagnitude fmt x mode rnd = (codeMag c).toNat) : fp8Encode fmt x mode rnd = c := by
  have hcls := cls_eq_normal_of_le_maxBits hexp hle
  have hclip : clip fmt x = x := if_neg hle.not_gt
  have hsat : (codeMag c).toNat ≤ 127 := Nat.le_of_lt_succ (codeMag c).isLt
  rw [fp8Encode, if_neg (by simp [hcls]), hclip, encodeClipped, if_neg (by simp [hcls]), hround,
    saturate_of_le hsat, packCode_codeMag _ hmag, hsign, codeJoin_codeSign_codeMag]

/-! ## ENCODE of what DECODE gives back -/

/-- A normal word has the implicit bit in its significand and its own exponent (R143, R144). -/
theorem significand_of_exp_ne_zero {x : F32} (hexp : (f32Exp x).toNat ≠ 0) :
    significand x = (f32Man x).toNat + 2 ^ 23 ∧ sourceExponent x = (f32Exp x).toNat - 127 := by
  have hexp' : f32Exp x ≠ 0x00#8 := fun h => hexp (by rw [h]; rfl)
  exact ⟨if_neg hexp', if_neg hexp'⟩

/-- A decoded normal code has its exponent field as target exponent, and its significand counts whole steps. -/
theorem fp8Decode_normal_steps {fmt : Fmt} (q : QnanBits) {c : Code} (hc : c ≠ nanCode) (hexp : codeExp fmt c ≠ 0) :
    targetExponent fmt (fp8Decode fmt q c) = codeExp fmt c ∧
    significand (fp8Decode fmt q c) =
      (codeMan fmt c + 2 ^ fmt.mb) * 2 ^ (fmt.w0 + subnormalShift fmt (fp8Decode fmt q c)) := by
  obtain ⟨-, hE, hM⟩ := fp8Decode_normal q hc hexp
  have hbias := fmt.bias_le
  obtain ⟨hsig, hsrc⟩ := significand_of_exp_ne_zero (x := fp8Decode fmt q c) (by omega)
  have hT : targetExponent fmt (fp8Decode fmt q c) = codeExp fmt c := by
    rw [targetExponent, hsrc, hE]; omega
  have hshift : subnormalShift fmt (fp8Decode fmt q c) = 0 := if_pos (by omega)
  refine ⟨hT, ?_⟩
  rw [hsig, hM, hshift, add_zero, add_mul, ← pow_add, add_comm fmt.mb, fmt.w0_add_mb]

/-- A decoded subnormal code is below the normal range by as many bits as lie above its highest 1 bit, and its
significand counts whole steps. -/
theorem fp8Decode_subnormal_steps {fmt : Fmt} (q : QnanBits) {c : Code} (hc : c ≠ nanCode) (hexp : codeExp fmt c = 0)
    (hman : codeMan fmt c ≠ 0) :
    targetExponent fmt (fp8Decode fmt q c) = highestOne (codeMan fmt c) + 1 - fmt.mb ∧
    significand (fp8Decode fmt q c) =
      codeMan fmt c * 2 ^ (fmt.w0 + subnormalShift fmt (fp8Decode fmt q c)) := by
  obtain ⟨-, hE, hM⟩ := fp8Decode_subnormal q hc hexp hman
  obtain ⟨hp, hle, -⟩ := highestOne_codeMan hman
  generalize highestOne (codeMan fmt c) = p at hE hM hp hle ⊢
  have hbias := fmt.bias_le
  have hmb := fmt.w0_add_mb
  have hw0 := fmt.w0_pos
  obtain ⟨hsig, hsrc⟩ := significand_of_exp_ne_zero (x := fp8Decode fmt q c) (by omega)
  have hT : targetExponent fmt (fp8Decode fmt q c) = p + 1 - fmt.mb := by
    rw [targetExponent, hsrc, hE]; omega
  have hshift : fmt.w0 + subnormalShift fmt (fp8Decode fmt q c) = 23 - p := by
    rw [subnormalShift, if_neg (by omega), hT]; omega
  refine ⟨hT, ?_⟩
  calc significand (fp8Decode fmt q c)
      = (codeMan fmt c - 2 ^ p) * 2 ^ (23 - p) + 2 ^ p * 2 ^ (23 - p) := by
        rw [hsig, hM, ← pow_add, Nat.add_sub_cancel' (by omega)]
    _ = codeMan fmt c * 2 ^ (fmt.w0 + subnormalShift fmt (fp8Decode fmt q c)) := by
        rw [← add_mul, Nat.sub_add_cancel hle, hshift]

theorem fp8Encode_fp8Decode_normal {fmt : Fmt} (q : QnanBits) {c : Code} (hc : c ≠ nanCode)
    (hexp : codeExp fmt c ≠ 0) (hmag : codeMag c ≠ 0#7) (mode : RoundMode) (rnd : Word) :
    fp8Encode fmt (fp8Decode fmt q c) mode rnd = c := by
  obtain ⟨hsign, hE, hM⟩ := fp8Decode_normal q hc hexp
  obtain ⟨hT, hsteps⟩ := fp8Decode_normal_steps q hc hexp
  have hT1 : 1 ≤ targetExponent fmt (fp8Decode fmt q c) := by omega
  have hE0 : (f32Exp (fp8Decode fmt q c)).toNat ≠ 0 := by
    have hbias := fmt.bias_le
    omega
  have hmax : (f32Mag (fp8Decode fmt q c)).toNat ≤ (f32Mag fmt.maxBits).toNat := by
    have hexpLt := codeExp_lt fmt c
    have hmanLt := codeMan_lt fmt c
    rw [f32Mag_maxBits, f32Mag_toNat, hE, hM]
    gcongr <;> omega
  refine fp8Encode_of_roundedMagnitude hE0 hmax hsign hmag ?_
  rw [roundedMagnitude_of_multiple hsteps, if_pos hT1, exponentField, if_pos hT1, hT, Int.toNat_natCast,
    Nat.add_sub_cancel, ← codeMag_eq]

theorem fp8Encode_fp8Decode_subnormal {fmt : Fmt} (q : QnanBits) {c : Code} (hc : c ≠ nanCode)
    (hexp : codeExp fmt c = 0) (hman : codeMan fmt c ≠ 0) (hmag : codeMag c ≠ 0#7) (mode : RoundMode) (rnd : Word) :
    fp8Encode fmt (fp8Decode fmt q c) mode rnd = c := by
  obtain ⟨hsign, hE, -⟩ := fp8Decode_subnormal q hc hexp hman
  obtain ⟨hT, hsteps⟩ := fp8Decode_subnormal_steps q hc hexp hman
  obtain ⟨hp, -, -⟩ := highestOne_codeMan hman
  have hT0 : ¬ 1 ≤ targetExponent fmt (fp8Decode fmt q c) := by omega
  have hbias := fmt.bias_le
  have hmb := fmt.w0_add_mb
  have hmax : (f32Mag (fp8Decode fmt q c)).toNat ≤ (f32Mag fmt.maxBits).toNat := by
    have hmanLt := (f32Man (fp8Decode fmt q c)).isLt
    have heb : 2 ≤ 2 ^ fmt.eb := by cases fmt <;> decide
    rw [f32Mag_maxBits, f32Mag_toNat, hE]
    omega
  refine fp8Encode_of_roundedMagnitude (by omega) hmax hsign hmag ?_
  rw [roundedMagnitude_of_multiple hsteps, if_neg hT0, exponentField, if_neg hT0, codeMag_eq fmt c, hexp]

theorem fp8Encode_fp8Decode_zero (fmt : Fmt) (q : QnanBits) (mode : RoundMode) (rnd : Word) :
    fp8Encode fmt (fp8Decode fmt q zeroCode) mode rnd = zeroCode := by
  have hdecode : fp8Decode fmt q zeroCode = 0x00000000#32 := by cases fmt <;> rfl
  have hclip : clip fmt 0x00000000#32 = 0x00000000#32 := by cases fmt <;> rfl
  rw [hdecode, fp8Encode, hclip]
  rfl

theorem fp8Encode_fp8Decode_nan (fmt fmt' : Fmt) (q : QnanBits) (mode : RoundMode) (rnd : Word) :
    fp8Encode fmt' (fp8Decode fmt q nanCode) mode rnd = nanCode := by
  have hdecode : fp8Decode fmt q nanCode = qnanWord q := if_pos rfl
  rw [fp8Encode, hdecode, if_pos (cls_qnanWord q)]

/-- Within one format ENCODE undoes DECODE, in both modes and for every rnd (R158). -/
theorem fp8Encode_fp8Decode (fmt : Fmt) (q : QnanBits) (c : Code) (mode : RoundMode) (rnd : Word) :
    fp8Encode fmt (fp8Decode fmt q c) mode rnd = c := by
  by_cases hnan : c = nanCode
  · rw [hnan, fp8Encode_fp8Decode_nan]
  by_cases hzero : c = zeroCode
  · rw [hzero, fp8Encode_fp8Decode_zero]
  have hmag : codeMag c ≠ 0#7 := (codeMag_eq_zero_iff hnan).not.mpr hzero
  by_cases hexp : codeExp fmt c = 0
  · have hman : codeMan fmt c ≠ 0 := fun hman =>
      hmag (BitVec.eq_of_toNat_eq (by simp [codeMag_eq fmt c, hexp, hman]))
    exact fp8Encode_fp8Decode_subnormal q hnan hexp hman hmag mode rnd
  · exact fp8Encode_fp8Decode_normal q hnan hexp hmag mode rnd

/-- Settles O43: CVT makes the two calls by its definition, and `fp8Encode_fp8Decode` undoes the first within one
format. -/
theorem convertIsDecodeThenEncode : Obligations.ConvertIsDecodeThenEncode := by
  unfold Obligations.ConvertIsDecodeThenEncode
  intro a b q c s
  refine ⟨fp8Decode a q c, fp8Encode b (fp8Decode a q c) .rne 0#32, fun t => exec_of_wf rfl t,
    fun t => exec_of_wf rfl t, rfl, ?_, ?_⟩
  · rintro rfl
    exact fp8Encode_fp8Decode_nan a b q .rne 0#32
  · rintro rfl
    exact fp8Encode_fp8Decode a q c .rne 0#32

end Sys2Proof.Proofs.Convert
end

section
/-! PROOF. DECOMPOSE and COMPOSE (40_bitview.md). The numeric weight of the three fields of a float32 says both what
COMPOSE joins and that the fields of a word determine it. -/

namespace Sys2Proof.Proofs.BitView

open Sys2Proof Sys2Proof.Machine Sys2Proof.Proofs.CallQueue Sys2Proof.Proofs.Convert

/-! ## The word and its fields -/

/-- A word is the sum of its fields, each at its place (R70, R100). -/
theorem f32_toNat (f : F32) :
    f.toNat = (f32Sign f).toNat * 2 ^ 31 + (f32Exp f).toNat * 2 ^ 23 + (f32Man f).toNat := by
  have hlt : f.toNat < 2 ^ 32 := f.isLt
  simp only [f32Sign, f32Exp, f32Man, BitVec.extractLsb'_toNat, Nat.shiftRight_eq_div_pow]
  omega

/-- COMPOSE puts each field at its place (R104). -/
theorem compose_toNat (sign : Bit) (exp : BitVec 8) (man : BitVec 23) :
    (compose sign exp man).toNat = sign.toNat * 2 ^ 31 + exp.toNat * 2 ^ 23 + man.toNat := by
  simpa using f32_toNat (compose sign exp man)

/-- Joining the fields of a word gives the word (R105). -/
theorem compose_fields (f : F32) : compose (f32Sign f) (f32Exp f) (f32Man f) = f :=
  BitVec.eq_of_toNat_eq (by rw [compose_toNat, ← f32_toNat])

/-! ## The class of the two lower fields -/

theorem classify_zero : classify 0x00#8 0#23 = .zero := rfl

theorem classify_inf : classify 0xFF#8 0#23 = .inf := rfl

theorem classify_subnormal {man : BitVec 23} (hman : man ≠ 0#23) : classify 0x00#8 man = .subnormal := by
  simp [classify, hman]

theorem classify_nan {man : BitVec 23} (hman : man ≠ 0#23) : classify 0xFF#8 man = .nan := by
  simp [classify, hman]

theorem classify_normal {exp : BitVec 8} {man : BitVec 23} (h0 : exp ≠ 0x00#8) (h255 : exp ≠ 0xFF#8) :
    classify exp man = .normal := by
  simp [classify, h0, h255]

/-! ## COMPOSE of unbounded integers -/

theorem legalTriple_iff (sign exp man : Int) :
    legalTriple sign exp man = true ↔ 0 ≤ sign ∧ sign < 2 ∧ 0 ≤ exp ∧ exp < 2 ^ 8 ∧ 0 ≤ man ∧ man < 2 ^ 23 :=
  decide_eq_true_iff

theorem composeInts_of_legal {sign exp man : Int} (hlegal : legalTriple sign exp man = true) (s : State) :
    composeInts sign exp man s = exec (.compose (BitVec.ofInt 1 sign) (BitVec.ofInt 8 exp) (BitVec.ofInt 23 man)) s :=
  if_pos hlegal

theorem composeInts_of_not_legal {sign exp man : Int} (hillegal : ¬ legalTriple sign exp man = true) (s : State) :
    composeInts sign exp man s = .refused .tripleOutOfRange :=
  if_neg hillegal

/-- An integer that a port of `n` bits can carry is not truncated by it. -/
theorem ofInt_toNat_of_fits {n : Nat} {z : Int} (h0 : 0 ≤ z) (hlt : z < 2 ^ n) :
    ((BitVec.ofInt n z).toNat : Int) = z := by
  rw [BitVec.toNat_ofInt, Nat.cast_pow, Nat.cast_ofNat, Int.emod_eq_of_lt h0 hlt, Int.toNat_of_nonneg h0]

/-! ## The obligations -/

/-- Settles O15: the fields are those `f32_toNat` adds up, and each condition is its `classify` lemma. -/
theorem decomposeReturnsFieldsAndClass : Obligations.DecomposeReturnsFieldsAndClass := by
  unfold Obligations.DecomposeReturnsFieldsAndClass
  intro f s
  refine ⟨f32Sign f, f32Exp f, f32Man f, (classify (f32Exp f) (f32Man f)).number, exec_of_wf rfl s, f32_toNat f,
    ?_, ?_, ?_, ?_, ?_⟩
  · intro hexp hman
    rw [hexp, hman, classify_zero, FloatClass.number]
  · intro hexp hman
    rw [hexp, classify_subnormal hman, FloatClass.number]
  · intro h0 h255
    rw [classify_normal h0 h255, FloatClass.number]
  · intro hexp hman
    rw [hexp, hman, classify_inf, FloatClass.number]
  · intro hexp hman
    rw [hexp, classify_nan hman, FloatClass.number]

/-- Settles O16: the composed word has the value of `compose_toNat`. -/
theorem composeJoinsTheFields : Obligations.ComposeJoinsTheFields := by
  unfold Obligations.ComposeJoinsTheFields
  intro sign exp man s
  exact ⟨compose sign exp man, exec_of_wf rfl s, compose_toNat sign exp man⟩

/-- Settles O17: `compose_fields` is one direction, the fields of a composed word the other. -/
theorem composeAndDecomposeAreInverse : Obligations.ComposeAndDecomposeAreInverse := by
  unfold Obligations.ComposeAndDecomposeAreInverse
  constructor
  · intro f s
    refine ⟨f32Sign f, f32Exp f, f32Man f, (classify (f32Exp f) (f32Man f)).number, exec_of_wf rfl s, fun t => ?_⟩
    rw [exec_of_wf rfl t, callOutputs, compose_fields]
  · intro sign exp man s
    refine ⟨compose sign exp man, exec_of_wf rfl s, fun t => ?_⟩
    rw [exec_of_wf rfl t, callOutputs, f32Sign_compose, f32Exp_compose, f32Man_compose]

/-- Settles O18: a triple is refused unless it is legal, and a legal one reaches the ports untruncated. -/
theorem composeOfIntegersRefusesAnIllegalTriple : Obligations.ComposeOfIntegersRefusesAnIllegalTriple := by
  unfold Obligations.ComposeOfIntegersRefusesAnIllegalTriple
  constructor
  · intro sign exp man s hout
    refine composeInts_of_not_legal (fun hlegal => ?_) s
    rw [legalTriple_iff] at hlegal
    omega
  · intro sign exp man s hs0 hs1 he0 he1 hm0 hm1
    have hlegal : legalTriple sign exp man = true := (legalTriple_iff sign exp man).mpr (by omega)
    refine ⟨BitVec.ofInt 1 sign, BitVec.ofInt 8 exp, BitVec.ofInt 23 man,
      compose (BitVec.ofInt 1 sign) (BitVec.ofInt 8 exp) (BitVec.ofInt 23 man), ?_, ?_⟩
    · rw [composeInts_of_legal hlegal, exec_of_wf rfl s, callOutputs]
    · rw [compose_toNat]
      push_cast
      rw [ofInt_toNat_of_fits hs0 (by omega), ofInt_toNat_of_fits he0 (by omega), ofInt_toNat_of_fits hm0 hm1]

end Sys2Proof.Proofs.BitView
end

section
/-! PROOF. The rounding decision (41_rounding.md §2, §3). RNE over the whole discarded field compares the field with half
of its range; SR counts the random values below disc. -/

namespace Sys2Proof.Proofs.Rounding

open Sys2Proof Sys2Proof.Machine

/-! ## Disc and its half -/

/-- What disc's port can carry fits the 21 bits of the operand (R81). -/
theorem disc_ofNat_toNat {fmt : Fmt} {d : Nat} (hd : d < 2 ^ fmt.w0) : (BitVec.ofNat 21 d).toNat = d := by
  have hle : 2 ^ fmt.w0 ≤ 2 ^ 21 := Nat.pow_le_pow_right two_pos fmt.w0_le
  rw [BitVec.toNat_ofNat, Nat.mod_eq_of_lt (hd.trans_le hle)]

theorem two_mul_halfDisc (fmt : Fmt) : 2 * halfDisc fmt = 2 ^ fmt.w0 := by
  rw [halfDisc, ← pow_succ', Nat.sub_add_cancel fmt.w0_pos]

theorem bit_eq_zero_iff_ne_one (b : Bit) : b = 0#1 ↔ b ≠ 1#1 := by
  decide +revert

/-! ## A call whose disc fits its port -/

section
variable {fmt : Fmt} {disc : BitVec 21} (hfits : disc.toNat < 2 ^ fmt.w0) (keptLsb sticky : Bit) (rnd : Word) (s : State)
include hfits

theorem exec_roundRne : exec (.roundRne fmt keptLsb disc sticky rnd) s =
    .next (s.returning (.roundRne fmt keptLsb disc sticky rnd) (.rounded (roundNearest fmt keptLsb disc sticky))) :=
  answerIfDiscFits_of_fits ((discFits_iff fmt disc).mpr hfits) _ _ s

theorem exec_roundSr : exec (.roundSr fmt keptLsb disc sticky rnd) s =
    .next (s.returning (.roundSr fmt keptLsb disc sticky rnd) (.rounded (roundStochastic fmt disc rnd))) :=
  answerIfDiscFits_of_fits ((discFits_iff fmt disc).mpr hfits) _ _ s

end

/-! ## RNE -/

section
variable {fmt : Fmt} {disc : BitVec 21} (keptLsb sticky : Bit)

theorem roundNearest_above_half (h : halfDisc fmt < disc.toNat) : roundNearest fmt keptLsb disc sticky = 1#1 :=
  if_pos h

theorem roundNearest_at_half (h : disc.toNat = halfDisc fmt) :
    roundNearest fmt keptLsb disc sticky = (sticky ||| keptLsb) := by
  rw [roundNearest, if_neg h.not_gt, if_pos h]

theorem roundNearest_below_half (h : disc.toNat < halfDisc fmt) : roundNearest fmt keptLsb disc sticky = 0#1 := by
  rw [roundNearest, if_neg h.not_gt, if_neg h.ne]

end

theorem stickyOf_eq_one_iff (v n : Nat) : stickyOf v n = 1#1 ↔ v % 2 ^ n ≠ 0 := by
  unfold stickyOf
  split <;> simp_all

theorem ofNat_one_eq_one_iff (n : Nat) : BitVec.ofNat 1 n = 1#1 ↔ n % 2 = 1 := by
  rw [← BitVec.toNat_inj, BitVec.toNat_ofNat]
  rfl

/-- A field is above `h` units if its quotient is, or if the quotient is `h` and something is left over. -/
theorem mul_lt_iff_div_mod {p : Nat} (hp : 0 < p) (h n : Nat) :
    h * p < n ↔ h < n / p ∨ (n / p = h ∧ n % p ≠ 0) := by
  have hle : h ≤ n / p ↔ h * p ≤ n := Nat.le_div_iff_mul_le hp
  have hlt : n / p ≤ h ↔ n < (h + 1) * p := by rw [← Nat.lt_succ_iff, Nat.div_lt_iff_lt_mul hp]
  have hn := Nat.div_add_mod' n p
  constructor
  · intro hgt
    rcases (hle.mpr hgt.le).lt_or_eq with hq | hq
    · exact .inl hq
    · refine .inr ⟨hq.symm, fun hr => ?_⟩
      rw [← hq, hr] at hn
      omega
  · rintro (hq | ⟨hq, hr⟩)
    · calc h * p < (n / p) * p := by gcongr
        _ ≤ n := Nat.div_mul_le_self n p
    · rw [hq] at hn
      omega

theorem eq_mul_iff_div_mod {p : Nat} (hp : 0 < p) (h n : Nat) : n = h * p ↔ n / p = h ∧ n % p = 0 := by
  rw [Nat.div_mod_unique hp, zero_add, mul_comm p, eq_comm]
  exact (and_iff_left hp).symm

/-- With disc the top of a discarded field and sticky its rest, RNE compares the whole field with half of its range and
breaks a tie by the kept field (R125). -/
theorem roundNearest_whole_field {fmt : Fmt} {D sh : Nat} {disc : BitVec 21} (kept : Nat)
    (hdisc : disc.toNat = D / 2 ^ sh) :
    roundNearest fmt (BitVec.ofNat 1 kept) disc (stickyOf D sh) = 1#1 ↔
      2 ^ (fmt.w0 + sh) < 2 * D ∨ (2 * D = 2 ^ (fmt.w0 + sh) ∧ kept % 2 = 1) := by
  have hrange : 2 ^ (fmt.w0 + sh) = 2 * (halfDisc fmt * 2 ^ sh) := by
    rw [pow_add, ← two_mul_halfDisc, mul_assoc]
  have hp : 0 < 2 ^ sh := by positivity
  rw [roundNearest_eq_one_iff, stickyOf_eq_one_iff, ofNat_one_eq_one_iff, hdisc, hrange,
    Nat.mul_lt_mul_left two_pos, Nat.mul_right_inj two_ne_zero, mul_lt_iff_div_mod hp, eq_mul_iff_div_mod hp]
  tauto

/-- Settles O19: the first clause is the three cases of `roundNearest`, the second is `roundNearest_whole_field`. -/
theorem roundRneRoundsToNearestEven : Obligations.RoundRneRoundsToNearestEven := by
  unfold Obligations.RoundRneRoundsToNearestEven
  constructor
  · intro fmt keptLsb disc sticky s hfits
    exact ⟨roundNearest fmt keptLsb disc sticky, fun rnd => exec_roundRne hfits keptLsb sticky rnd s,
      roundNearest_above_half keptLsb sticky, roundNearest_at_half keptLsb sticky,
      roundNearest_below_half keptLsb sticky⟩
  · intro fmt kept D sh rnd s hD
    have hfits : D / 2 ^ sh < 2 ^ fmt.w0 := by
      rwa [Nat.div_lt_iff_lt_mul (by positivity), ← pow_add]
    have hdisc := disc_ofNat_toNat hfits
    refine ⟨BitVec.ofNat 21 (D / 2 ^ sh), stickyOf D sh,
      roundNearest fmt (BitVec.ofNat 1 kept) (BitVec.ofNat 21 (D / 2 ^ sh)) (stickyOf D sh), hdisc,
      stickyOf_eq_one_iff D sh, exec_roundRne (by rwa [hdisc]) _ _ rnd s,
      roundNearest_whole_field kept hdisc⟩

/-! ## SR -/

/-- Settles O20: `roundStochastic` has no argument for kept_lsb and sticky. -/
theorem roundSrComparesTheLowRandomBits : Obligations.RoundSrComparesTheLowRandomBits := by
  unfold Obligations.RoundSrComparesTheLowRandomBits
  intro fmt disc rnd s hfits
  exact ⟨roundStochastic fmt disc rnd, fun keptLsb sticky => exec_roundSr hfits keptLsb sticky rnd s,
    roundStochastic_eq_one_iff fmt disc rnd⟩

/-- Settles O21: nothing is below disc = 0, the random value 0 is below any other disc, and the largest random value is
below no disc that fits its port. -/
theorem roundSrAtTheEndsOfTheRange : Obligations.RoundSrAtTheEndsOfTheRange := by
  unfold Obligations.RoundSrAtTheEndsOfTheRange
  intro fmt keptLsb disc sticky rnd s hfits
  have hup := roundStochastic_eq_one_iff fmt disc rnd
  have hzero : disc = 0#21 ↔ disc.toNat = 0 := BitVec.toNat_inj.symm
  rw [srValue] at hup
  refine ⟨roundStochastic fmt disc rnd, exec_roundSr hfits keptLsb sticky rnd s, ?_, ?_, ?_⟩
  · intro hdisc
    rw [bit_eq_zero_iff_ne_one, ne_eq, hup, hzero.mp hdisc]
    exact Nat.not_lt_zero _
  · intro hrnd
    rw [hup, hrnd, ne_eq, hzero]
    exact Nat.pos_iff_ne_zero
  · intro hrnd
    rw [bit_eq_zero_iff_ne_one, ne_eq, hup, hrnd]
    omega

/-- The random values 0 to 2^w0 - 1 are compared as they are (R127). -/
theorem srValue_ofNat {fmt : Fmt} {r : Nat} (hr : r < 2 ^ fmt.w0) : srValue fmt (BitVec.ofNat 32 r) = r := by
  have hle : 2 ^ fmt.w0 ≤ 2 ^ 32 := Nat.pow_le_pow_right two_pos (fmt.w0_le.trans (by decide))
  rw [srValue, BitVec.toNat_ofNat, Nat.mod_eq_of_lt (hr.trans_le hle), Nat.mod_eq_of_lt hr]

/-- The random values that round up are those below disc (R129). -/
theorem filter_roundStochastic_eq_one {fmt : Fmt} {disc : BitVec 21} (hfits : disc.toNat < 2 ^ fmt.w0) :
    (Finset.range (2 ^ fmt.w0)).filter (fun r => roundStochastic fmt disc (BitVec.ofNat 32 r) = 1#1) =
      Finset.range disc.toNat := by
  ext r
  rw [Finset.mem_filter, Finset.mem_range, Finset.mem_range, roundStochastic_eq_one_iff]
  constructor
  · rintro ⟨hr, hup⟩
    rwa [srValue_ofNat hr] at hup
  · intro hup
    have hr := hup.trans hfits
    exact ⟨hr, by rwa [srValue_ofNat hr]⟩

/-- Settles O22: the random values that round up are the numbers below disc. -/
theorem roundSrRoundsUpForDiscOfTheRandomValues : Obligations.RoundSrRoundsUpForDiscOfTheRandomValues := by
  unfold Obligations.RoundSrRoundsUpForDiscOfTheRandomValues
  intro fmt keptLsb disc sticky s hfits
  refine ⟨roundStochastic fmt disc, fun rnd => exec_roundSr hfits keptLsb sticky rnd s, ?_⟩
  rw [filter_roundStochastic_eq_one hfits, Finset.card_range]

end Sys2Proof.Proofs.Rounding
end

section
/-! PROOF. The real values of an encoder call (42_encoder.md §2, R146, R148). The clipped magnitude is the kept field and
a discarded part, in steps at its place; the code that comes back has the magnitude of the kept steps plus the decision. -/

namespace Sys2Proof.Proofs.EncodeValue

open Sys2Proof Sys2Proof.Machine Sys2Proof.Proofs.MagnitudeOrder Sys2Proof.Proofs.CodeClasses
  Sys2Proof.Proofs.Convert

/-! ## A value is its sign and its magnitude -/

theorem finite32_eq (x : F32) :
    finite32 x = signFactor (f32Sign x) * fieldMagnitude 23 127 (f32Mag x).toNat := by
  rw [← abs_finite32]
  unfold finite32
  split <;> rw [mul_assoc, abs_mul, abs_signFactor, one_mul, abs_of_nonneg (by positivity)]

theorem valF_eq (fmt : Fmt) (c : Code) :
    valF fmt c = signFactor (codeSign c) * fieldMagnitude fmt.mb fmt.bias (codeMag c).toNat := by
  rw [← abs_valF]
  unfold valF
  split <;> rw [mul_assoc, abs_mul, abs_signFactor, one_mul, abs_of_nonneg (by positivity)]

/-- The code of a magnitude up to 127 has the value of that magnitude with the sign, and zero has one code only. -/
theorem valF_packCode (fmt : Fmt) (sign : Bit) {mag : Nat} (hmag : mag ≤ 127) :
    valF fmt (packCode sign mag) = signFactor sign * fieldMagnitude fmt.mb fmt.bias mag := by
  by_cases h0 : mag = 0
  · rw [h0, packCode_zero, fieldMagnitude_zero, mul_zero, valF_eq_zero_iff fmt (by decide)]
  · rw [packCode, if_neg h0, valF_eq, codeSign_codeJoin, codeMag_codeJoin, BitVec.toNat_ofNat,
      Nat.mod_eq_of_lt (by omega)]

/-! ## The clip -/

@[simp] theorem f32Sign_f32OfMag (sign : Bit) (mag : BitVec 31) : f32Sign (f32OfMag sign mag) = sign :=
  BitVec.extractLsb'_append_eq_left

@[simp] theorem f32Mag_f32OfMag (sign : Bit) (mag : BitVec 31) : f32Mag (f32OfMag sign mag) = mag :=
  BitVec.extractLsb'_append_eq_right

@[simp] theorem f32Sign_clip (fmt : Fmt) (x : F32) : f32Sign (clip fmt x) = f32Sign x := by
  unfold clip
  split <;> simp

theorem f32Mag_clip (fmt : Fmt) (x : F32) :
    (f32Mag (clip fmt x)).toNat = min (f32Mag x).toNat (f32Mag fmt.maxBits).toNat := by
  unfold clip
  split
  · rw [f32Mag_f32OfMag]; omega
  · omega

/-- MAX as a float32 word is the value of R11. -/
theorem fieldMagnitude_maxBits (fmt : Fmt) : fieldMagnitude 23 127 (f32Mag fmt.maxBits).toNat = maxFiniteValue fmt := by
  rw [f32Mag_maxBits]
  cases fmt <;> norm_num [fieldMagnitude, fieldSignificand, ulp, maxFiniteValue]

/-- MAX is the value of the largest magnitude code. -/
theorem fieldMagnitude_maxCode (fmt : Fmt) : fieldMagnitude fmt.mb fmt.bias 127 = maxFiniteValue fmt := by
  cases fmt <;> norm_num [fieldMagnitude, fieldSignificand, ulp, maxFiniteValue]

theorem fieldMagnitude_clip (fmt : Fmt) (x : F32) :
    fieldMagnitude 23 127 (f32Mag (clip fmt x)).toNat =
      min (fieldMagnitude 23 127 (f32Mag x).toNat) (maxFiniteValue fmt) := by
  rw [f32Mag_clip, (fieldMagnitude_strictMono 23 127).monotone.map_min, fieldMagnitude_maxBits]

/-- Clipping a signed value to both bounds clips its magnitude to MAX. -/
theorem clamp_signFactor_mul (sign : Bit) {a m : ℚ} (ha : 0 ≤ a) (hm : 0 ≤ m) :
    max (-m) (min m (signFactor sign * a)) = signFactor sign * min a m := by
  unfold signFactor
  split
  · rw [min_eq_right (by linarith), neg_one_mul, neg_one_mul, max_neg_neg, min_comm]
  · rw [one_mul, one_mul, max_eq_right (by linarith [le_min hm ha]), min_comm]

theorem cls_eq_nan_iff (x : F32) : (decompose x).cls = .nan ↔ f32Exp x = 0xFF#8 ∧ f32Man x ≠ 0#23 := by
  simp only [decompose, classify]
  split_ifs <;> simp_all

/-- The real clip of R142 is the value of the clipped word. -/
theorem clippedValue_eq_finite32_clip (fmt : Fmt) {x : F32} (hx : ¬ (f32Exp x = 0xFF#8 ∧ f32Man x ≠ 0#23)) :
    clippedValue fmt x = finite32 (clip fmt x) := by
  have hmax : 0 ≤ maxFiniteValue fmt := by cases fmt <;> norm_num [maxFiniteValue]
  rw [finite32_eq, f32Sign_clip]
  by_cases hinf : (decompose x).cls = .inf
  · have hmag := (f32Mag_le_of_not_nan hx).2.mp hinf
    have hle : (f32Mag fmt.maxBits).toNat ≤ 0x7F800000 := by cases fmt <;> decide
    rw [f32Mag_clip, hmag, min_eq_right hle, fieldMagnitude_maxBits]
    simp [clippedValue, val32, hinf]
  · have hval : val32 x = .finite (finite32 x) := by
      have hnan : (decompose x).cls ≠ .nan := (cls_eq_nan_iff x).not.mpr hx
      unfold val32
      split <;> simp_all
    rw [fieldMagnitude_clip, ← clamp_signFactor_mul _ (fieldMagnitude_nonneg _ _ _) hmax, ← finite32_eq]
    simp [clippedValue, hval]

/-! ## The magnitude in steps -/

theorem exp_eq_zero_iff (x : F32) : f32Exp x = 0x00#8 ↔ (f32Mag x).toNat / 2 ^ 23 = 0 := by
  rw [← f32Exp_toNat, ← BitVec.toNat_inj]
  rfl

theorem significand_eq (x : F32) : significand x = fieldSignificand 23 (f32Mag x).toNat := by
  simp only [significand, fieldSignificand, exp_eq_zero_iff, f32Man_toNat]
  split <;> omega

theorem sourceExponent_eq (x : F32) : sourceExponent x = max (((f32Mag x).toNat / 2 ^ 23 : Nat) : ℤ) 1 - 127 := by
  simp only [sourceExponent, exp_eq_zero_iff, f32Exp_toNat]
  split <;> omega

/-- A magnitude is its significand in units of the last place of its significand (R143, R144). -/
theorem fieldMagnitude_eq_significand (x : F32) :
    fieldMagnitude 23 127 (f32Mag x).toNat = significand x * 2 ^ (sourceExponent x - 23) := by
  rw [significand_eq, sourceExponent_eq]
  rfl

/-- The subnormal shift moves the target exponent up to 1 (R145). -/
theorem targetExponent_add_subnormalShift (fmt : Fmt) (x : F32) :
    targetExponent fmt x + subnormalShift fmt x = max (targetExponent fmt x) 1 := by
  unfold subnormalShift
  split <;> omega

theorem stepValue_pos (fmt : Fmt) (x : F32) : 0 < stepValue fmt x := by
  unfold stepValue
  positivity

/-- One step is as many units of the significand as the discarded field has values (R146). -/
theorem stepValue_eq (fmt : Fmt) (x : F32) :
    stepValue fmt x = 2 ^ (fmt.w0 + subnormalShift fmt x) * 2 ^ (sourceExponent x - 23) := by
  have hw0 := fmt.w0_add_mb
  rw [stepValue, ← targetExponent_add_subnormalShift, ← zpow_natCast, ← zpow_add₀ two_ne_zero, targetExponent]
  congr 1
  push_cast
  omega

theorem significand_eq_kept_add_discarded (fmt : Fmt) (x : F32) :
    significand x = keptField fmt x * 2 ^ (fmt.w0 + subnormalShift fmt x) + wholeDiscarded fmt x := by
  rw [keptField, wholeDiscarded, Nat.shiftRight_eq_div_pow, Nat.div_add_mod']

/-- R146: a magnitude is its kept steps and the discarded part of one step. -/
theorem fieldMagnitude_eq_steps (fmt : Fmt) (x : F32) :
    fieldMagnitude 23 127 (f32Mag x).toNat =
      (keptField fmt x + wholeDiscarded fmt x / 2 ^ (fmt.w0 + subnormalShift fmt x)) * stepValue fmt x := by
  rw [fieldMagnitude_eq_significand, stepValue_eq, significand_eq_kept_add_discarded fmt]
  push_cast
  field_simp

theorem clippedValue_eq_steps (fmt : Fmt) {x : F32} (hx : ¬ (f32Exp x = 0xFF#8 ∧ f32Man x ≠ 0#23)) :
    clippedValue fmt x = signFactor (f32Sign x) * ((keptField fmt (clip fmt x) +
      wholeDiscarded fmt (clip fmt x) / 2 ^ (fmt.w0 + subnormalShift fmt (clip fmt x))) *
        stepValue fmt (clip fmt x)) := by
  rw [clippedValue_eq_finite32_clip fmt hx, finite32_eq, f32Sign_clip, fieldMagnitude_eq_steps fmt]

/-! ## The magnitude code before and after rounding -/

theorem significand_lt (x : F32) : significand x < 2 ^ 24 := by
  have hman := (f32Man x).isLt
  unfold significand
  split <;> omega

/-- On the normal path the significand has its implicit bit. -/
theorem le_significand {fmt : Fmt} {x : F32} (hT : 1 ≤ targetExponent fmt x) : 2 ^ 23 ≤ significand x := by
  have hbias := fmt.bias_le
  have hexp : f32Exp x ≠ 0x00#8 := fun hexp => by
    rw [targetExponent, sourceExponent, if_pos hexp] at hT
    omega
  rw [significand, if_neg hexp]
  omega

/-- On the normal path the kept field is the implicit bit above `mb` bits (R121). -/
theorem keptField_normal {fmt : Fmt} {x : F32} (hT : 1 ≤ targetExponent fmt x) :
    2 ^ fmt.mb ≤ keptField fmt x ∧ keptField fmt x < 2 * 2 ^ fmt.mb := by
  have hshift : subnormalShift fmt x = 0 := if_pos hT
  rw [keptField, hshift, add_zero, Nat.shiftRight_eq_div_pow, Nat.le_div_iff_mul_le (by positivity),
    Nat.div_lt_iff_lt_mul (by positivity), mul_assoc, ← pow_add, add_comm, fmt.w0_add_mb]
  exact ⟨le_significand hT, significand_lt x⟩

/-- On the subnormal path the kept field fits the mantissa field (R145). -/
theorem keptField_subnormal {fmt : Fmt} {x : F32} (hT : ¬ 1 ≤ targetExponent fmt x) :
    keptField fmt x < 2 ^ fmt.mb := by
  have hshift : 1 ≤ subnormalShift fmt x := by
    rw [subnormalShift, if_neg hT]
    omega
  rw [keptField, Nat.shiftRight_eq_div_pow, Nat.div_lt_iff_lt_mul (by positivity), ← pow_add]
  exact (significand_lt x).trans_le (Nat.pow_le_pow_right two_pos (by have := fmt.w0_add_mb; omega))

theorem mantissaField_lt (fmt : Fmt) (x : F32) : mantissaField fmt x < 2 ^ fmt.mb := by
  unfold mantissaField
  split
  case isTrue hT =>
    obtain ⟨hle, hlt⟩ := keptField_normal hT
    omega
  case isFalse hT => exact keptField_subnormal hT

/-- The magnitude code before rounding (R148). -/
def unroundedMagnitude (fmt : Fmt) (x : F32) : Nat := exponentField fmt x * 2 ^ fmt.mb + mantissaField fmt x

theorem roundedMagnitude_eq (fmt : Fmt) (x : F32) (mode : RoundMode) (rnd : Word) :
    roundedMagnitude fmt x mode rnd = unroundedMagnitude fmt x + (roundUp fmt x mode rnd).toNat := by
  rw [roundedMagnitude, unroundedMagnitude, Nat.shiftLeft_eq]

theorem unroundedMagnitude_div_mod (fmt : Fmt) (x : F32) :
    unroundedMagnitude fmt x / 2 ^ fmt.mb = exponentField fmt x ∧
    unroundedMagnitude fmt x % 2 ^ fmt.mb = mantissaField fmt x := by
  rw [Nat.div_mod_unique (by positivity), unroundedMagnitude]
  exact ⟨by ring, mantissaField_lt fmt x⟩

/-- The exponent field names the step of its place (R146). -/
theorem ulp_unroundedMagnitude (fmt : Fmt) (x : F32) :
    ulp fmt.mb fmt.bias (unroundedMagnitude fmt x) = stepValue fmt x := by
  have hexp : max (exponentField fmt x : ℤ) 1 = max (targetExponent fmt x) 1 := by
    unfold exponentField
    split <;> omega
  rw [ulp, (unroundedMagnitude_div_mod fmt x).1, hexp, stepValue]

/-- Taking the implicit bit off the kept field loses nothing: a nonzero exponent field puts it back. -/
theorem fieldSignificand_unroundedMagnitude (fmt : Fmt) (x : F32) :
    fieldSignificand fmt.mb (unroundedMagnitude fmt x) = keptField fmt x := by
  obtain ⟨hdiv, hmod⟩ := unroundedMagnitude_div_mod fmt x
  rw [fieldSignificand, hdiv, hmod, exponentField, mantissaField]
  by_cases hT : 1 ≤ targetExponent fmt x
  · have hle := (keptField_normal hT).1
    rw [if_pos hT, if_pos hT, if_neg (by omega), Nat.add_sub_cancel' hle]
  · rw [if_neg hT, if_neg hT, if_pos rfl, zero_add]

theorem fieldMagnitude_unroundedMagnitude (fmt : Fmt) (x : F32) :
    fieldMagnitude fmt.mb fmt.bias (unroundedMagnitude fmt x) = keptField fmt x * stepValue fmt x := by
  rw [fieldMagnitude, fieldSignificand_unroundedMagnitude, ulp_unroundedMagnitude]

/-- R148: the magnitude after rounding is the kept steps and the decision, carries included. -/
theorem fieldMagnitude_roundedMagnitude (fmt : Fmt) (x : F32) (mode : RoundMode) (rnd : Word) :
    fieldMagnitude fmt.mb fmt.bias (roundedMagnitude fmt x mode rnd) =
      (keptField fmt x + (roundUp fmt x mode rnd).toNat) * stepValue fmt x := by
  rw [roundedMagnitude_eq]
  obtain hup | hup : (roundUp fmt x mode rnd).toNat = 0 ∨ (roundUp fmt x mode rnd).toNat = 1 := by
    have hlt := (roundUp fmt x mode rnd).isLt
    omega
  · rw [hup, add_zero, fieldMagnitude_unroundedMagnitude, Nat.cast_zero, add_zero]
  · rw [hup, fieldMagnitude_succ, fieldMagnitude_unroundedMagnitude, ulp_unroundedMagnitude, Nat.cast_one]
    ring

/-- An input whose discarded field is 0 is not rounded up. -/
theorem roundUp_of_discarded_zero {fmt : Fmt} {x : F32} (hD : wholeDiscarded fmt x = 0) (mode : RoundMode)
    (rnd : Word) : roundUp fmt x mode rnd = 0#1 := by
  have hsig := significand_eq_kept_add_discarded fmt x
  rw [hD, add_zero] at hsig
  rw [roundUp, discField_of_multiple hsig, stickyField_of_multiple hsig, roundDecide_zero]

/-- R149: up to MAX the rounded magnitude fits a code: rounding up needs a discarded part, which at the largest
magnitude code would lie above MAX. -/
theorem roundedMagnitude_le {fmt : Fmt} {x : F32} (hle : (f32Mag x).toNat ≤ (f32Mag fmt.maxBits).toNat)
    (mode : RoundMode) (rnd : Word) : roundedMagnitude fmt x mode rnd ≤ 127 := by
  have hmono := fieldMagnitude_strictMono fmt.mb fmt.bias
  have hstep := stepValue_pos fmt x
  have hvalue : (keptField fmt x + wholeDiscarded fmt x / 2 ^ (fmt.w0 + subnormalShift fmt x)) * stepValue fmt x ≤
      fieldMagnitude fmt.mb fmt.bias 127 := by
    rw [← fieldMagnitude_eq_steps, fieldMagnitude_maxCode, ← fieldMagnitude_maxBits]
    exact (fieldMagnitude_strictMono 23 127).monotone hle
  rw [roundedMagnitude_eq]
  by_cases hD : wholeDiscarded fmt x = 0
  · rw [hD, Nat.cast_zero, zero_div, add_zero, ← fieldMagnitude_unroundedMagnitude, hmono.le_iff_le] at hvalue
    rw [roundUp_of_discarded_zero hD]
    exact hvalue
  · have hpart : (0 : ℚ) < wholeDiscarded fmt x / 2 ^ (fmt.w0 + subnormalShift fmt x) := by
      have hD' : (0 : ℚ) < wholeDiscarded fmt x := by exact_mod_cast Nat.pos_of_ne_zero hD
      positivity
    have hlt : fieldMagnitude fmt.mb fmt.bias (unroundedMagnitude fmt x) < fieldMagnitude fmt.mb fmt.bias 127 := by
      rw [fieldMagnitude_unroundedMagnitude]
      refine lt_of_lt_of_le ?_ hvalue
      gcongr
      exact lt_add_of_pos_right _ hpart
    have hup := (roundUp fmt x mode rnd).isLt
    rw [hmono.lt_iff_lt] at hlt
    omega

theorem roundedMagnitude_clip_le (fmt : Fmt) (x : F32) (mode : RoundMode) (rnd : Word) :
    roundedMagnitude fmt (clip fmt x) mode rnd ≤ 127 :=
  roundedMagnitude_le (by rw [f32Mag_clip]; exact min_le_right _ _) mode rnd

/-! ## The value of the code returned -/

theorem cls_eq_zero_iff (x : F32) : (decompose x).cls = .zero ↔ f32Exp x = 0x00#8 ∧ f32Man x = 0#23 := by
  simp only [decompose, classify]
  split_ifs <;> simp_all

/-- The zero input needs no case of its own: its magnitude code is 0 before and after rounding. -/
theorem roundedMagnitude_of_zero (fmt : Fmt) {x : F32} (hzero : (decompose x).cls = .zero) (mode : RoundMode)
    (rnd : Word) : roundedMagnitude fmt x mode rnd = 0 := by
  obtain ⟨hexp, hman⟩ := (cls_eq_zero_iff x).mp hzero
  have hsig : significand x = 0 * 2 ^ (fmt.w0 + subnormalShift fmt x) := by
    rw [significand, if_pos hexp, hman, zero_mul]
    rfl
  have hT : ¬ 1 ≤ targetExponent fmt x := by
    have hbias := fmt.bias_le
    rw [targetExponent, sourceExponent, if_pos hexp]
    omega
  rw [roundedMagnitude_of_multiple hsig, exponentField, if_neg hT, if_neg hT, zero_mul]

/-- A word that is not NaN encodes as the sign and the rounded magnitude of the clipped word (R140). -/
theorem fp8Encode_eq_packCode (fmt : Fmt) {x : F32} (hx : ¬ (f32Exp x = 0xFF#8 ∧ f32Man x ≠ 0#23)) (mode : RoundMode)
    (rnd : Word) :
    fp8Encode fmt x mode rnd = packCode (f32Sign x) (roundedMagnitude fmt (clip fmt x) mode rnd) := by
  rw [fp8Encode, if_neg ((cls_eq_nan_iff x).not.mpr hx), encodeClipped]
  split
  case isTrue hzero => rw [roundedMagnitude_of_zero fmt hzero, packCode_zero]
  case isFalse => rw [saturate_of_le (roundedMagnitude_clip_le fmt x mode rnd), f32Sign_clip]

/-- R146, R148: the code returned has the value of the kept steps and the decision, with the sign of the input. -/
theorem valF_fp8Encode (fmt : Fmt) {x : F32} (hx : ¬ (f32Exp x = 0xFF#8 ∧ f32Man x ≠ 0#23)) (mode : RoundMode)
    (rnd : Word) :
    valF fmt (fp8Encode fmt x mode rnd) = signFactor (f32Sign x) *
      ((keptField fmt (clip fmt x) + (roundUp fmt (clip fmt x) mode rnd).toNat) * stepValue fmt (clip fmt x)) := by
  rw [fp8Encode_eq_packCode fmt hx, valF_packCode fmt _ (roundedMagnitude_clip_le fmt x mode rnd),
    fieldMagnitude_roundedMagnitude]

end Sys2Proof.Proofs.EncodeValue
end

section
/-! PROOF. The mean of ENCODE.SR over the random values (41_rounding.md R131). Of the 2^w0 random values disc round up, so
the mean has the fraction disc / 2^w0 of a step; what lies below disc is lost, and that is what sticky reports. -/

namespace Sys2Proof.Proofs.EncodeMean

open Sys2Proof Sys2Proof.Machine Sys2Proof.Proofs.CallQueue Sys2Proof.Proofs.MagnitudeOrder
  Sys2Proof.Proofs.Rounding Sys2Proof.Proofs.EncodeValue

/-! ## The discarded field is disc above a rest -/

theorem discField_toNat (fmt : Fmt) (x : F32) :
    (discField fmt x).toNat = significand x / 2 ^ subnormalShift fmt x % 2 ^ fmt.w0 := by
  rw [discField, disc_ofNat_toNat (Nat.mod_lt _ (by positivity)), Nat.shiftRight_eq_div_pow]

theorem discField_lt (fmt : Fmt) (x : F32) : (discField fmt x).toNat < 2 ^ fmt.w0 := by
  rw [discField_toNat]
  exact Nat.mod_lt _ (by positivity)

/-- What the subnormal shift moves out below disc (R122). -/
def shiftedOut (fmt : Fmt) (x : F32) : Nat := significand x % 2 ^ subnormalShift fmt x

theorem shiftedOut_lt (fmt : Fmt) (x : F32) : shiftedOut fmt x < 2 ^ subnormalShift fmt x :=
  Nat.mod_lt _ (by positivity)

theorem stickyField_eq_one_iff (fmt : Fmt) (x : F32) : stickyField fmt x = 1#1 ↔ shiftedOut fmt x ≠ 0 :=
  stickyOf_eq_one_iff _ _

theorem wholeDiscarded_eq (fmt : Fmt) (x : F32) :
    wholeDiscarded fmt x = shiftedOut fmt x + 2 ^ subnormalShift fmt x * (discField fmt x).toNat := by
  rw [wholeDiscarded, add_comm fmt.w0, pow_add, Nat.mod_mul, discField_toNat, shiftedOut]

/-- The bits moved out, as a part of one unit of disc. -/
def lostPart (fmt : Fmt) (x : F32) : ℚ := shiftedOut fmt x / 2 ^ subnormalShift fmt x

theorem lostPart_lt_one (fmt : Fmt) (x : F32) : lostPart fmt x < 1 := by
  rw [lostPart, div_lt_one (by positivity)]
  exact_mod_cast shiftedOut_lt fmt x

theorem lostPart_pos_of_sticky {fmt : Fmt} {x : F32} (hsticky : stickyField fmt x = 1#1) : 0 < lostPart fmt x := by
  have hout : (0 : ℚ) < shiftedOut fmt x := by
    exact_mod_cast Nat.pos_of_ne_zero ((stickyField_eq_one_iff fmt x).mp hsticky)
  unfold lostPart
  positivity

theorem lostPart_of_not_sticky {fmt : Fmt} {x : F32} (hsticky : stickyField fmt x = 0#1) : lostPart fmt x = 0 := by
  rw [bit_eq_zero_iff_ne_one, ne_eq, stickyField_eq_one_iff, not_not] at hsticky
  rw [lostPart, hsticky, Nat.cast_zero, zero_div]

/-- Bits are moved out on the subnormal path only (R122, R145). -/
theorem targetExponent_le_of_sticky {fmt : Fmt} {x : F32} (hsticky : stickyField fmt x = 1#1) :
    targetExponent fmt x ≤ 0 := by
  by_contra hT
  have hshift : subnormalShift fmt x = 0 := if_pos (by omega)
  have hlt := shiftedOut_lt fmt x
  rw [stickyField_eq_one_iff] at hsticky
  rw [hshift, pow_zero] at hlt
  omega

/-- 2^w0 times the steps of a magnitude. -/
theorem steps_mul_range (fmt : Fmt) (x : F32) :
    (2 : ℚ) ^ fmt.w0 * (keptField fmt x + wholeDiscarded fmt x / 2 ^ (fmt.w0 + subnormalShift fmt x)) =
      keptField fmt x * 2 ^ fmt.w0 + (discField fmt x).toNat + lostPart fmt x := by
  rw [wholeDiscarded_eq, lostPart, pow_add]
  push_cast
  field_simp
  ring

/-! ## The sum over the random values -/

/-- R129: the decisions of SR over the random values add up to disc. -/
theorem sum_roundStochastic {fmt : Fmt} {disc : BitVec 21} (hfits : disc.toNat < 2 ^ fmt.w0) :
    ∑ r ∈ Finset.range (2 ^ fmt.w0), ((roundStochastic fmt disc (BitVec.ofNat 32 r)).toNat : ℚ) = disc.toNat := by
  have hbit : ∀ up : Bit, (up.toNat : ℚ) = if up = 1#1 then 1 else 0 := fun up => by
    by_cases hup : up = 1#1
    · simp [hup]
    · simp [(bit_eq_zero_iff_ne_one up).mpr hup]
  simp only [hbit]
  rw [Finset.sum_boole, filter_roundStochastic_eq_one hfits, Finset.card_range]

theorem roundUp_sr (fmt : Fmt) (x : F32) (rnd : Word) :
    roundUp fmt x .sr rnd = roundStochastic fmt (discField fmt x) rnd := rfl

/-- R131: the steps that ENCODE.SR returns over the random values. -/
theorem sum_kept_add_roundUp (fmt : Fmt) (x : F32) :
    ∑ r ∈ Finset.range (2 ^ fmt.w0),
        ((keptField fmt x : ℚ) + (roundUp fmt x .sr (BitVec.ofNat 32 r)).toNat) =
      keptField fmt x * 2 ^ fmt.w0 + (discField fmt x).toNat := by
  simp only [roundUp_sr]
  rw [Finset.sum_add_distrib, sum_roundStochastic (discField_lt fmt x), Finset.sum_const, Finset.card_range,
    nsmul_eq_mul, Nat.cast_pow, Nat.cast_ofNat, mul_comm]

theorem sum_valF_fp8Encode (fmt : Fmt) {x : F32} (hx : ¬ (f32Exp x = 0xFF#8 ∧ f32Man x ≠ 0#23)) :
    ∑ r ∈ Finset.range (2 ^ fmt.w0), valF fmt (fp8Encode fmt x .sr (BitVec.ofNat 32 r)) =
      signFactor (f32Sign x) * ((keptField fmt (clip fmt x) * 2 ^ fmt.w0 + (discField fmt (clip fmt x)).toNat) *
        stepValue fmt (clip fmt x)) := by
  simp only [valF_fp8Encode fmt hx]
  rw [← Finset.mul_sum, ← Finset.sum_mul, sum_kept_add_roundUp]

theorem abs_signFactor_mul (sign : Bit) {a : ℚ} (ha : 0 ≤ a) : |signFactor sign * a| = a := by
  rw [abs_mul, abs_signFactor, one_mul, abs_of_nonneg ha]

theorem sum_abs_valF_fp8Encode (fmt : Fmt) {x : F32} (hx : ¬ (f32Exp x = 0xFF#8 ∧ f32Man x ≠ 0#23)) :
    ∑ r ∈ Finset.range (2 ^ fmt.w0), |valF fmt (fp8Encode fmt x .sr (BitVec.ofNat 32 r))| =
      (keptField fmt (clip fmt x) * 2 ^ fmt.w0 + (discField fmt (clip fmt x)).toNat) * stepValue fmt (clip fmt x) := by
  have hstep := stepValue_pos fmt (clip fmt x)
  have habs : ∀ rnd, |valF fmt (fp8Encode fmt x .sr rnd)| =
      (keptField fmt (clip fmt x) + (roundUp fmt (clip fmt x) .sr rnd).toNat) * stepValue fmt (clip fmt x) :=
    fun rnd => by rw [valF_fp8Encode fmt hx, abs_signFactor_mul _ (by positivity)]
  simp only [habs]
  rw [← Finset.sum_mul, sum_kept_add_roundUp]

/-! ## The clipped input at the same scale -/

theorem range_mul_clippedValue (fmt : Fmt) {x : F32} (hx : ¬ (f32Exp x = 0xFF#8 ∧ f32Man x ≠ 0#23)) :
    2 ^ fmt.w0 * clippedValue fmt x =
      signFactor (f32Sign x) * ((keptField fmt (clip fmt x) * 2 ^ fmt.w0 + (discField fmt (clip fmt x)).toNat +
        lostPart fmt (clip fmt x)) * stepValue fmt (clip fmt x)) := by
  rw [clippedValue_eq_steps fmt hx, ← steps_mul_range]
  ring

theorem range_mul_abs_clippedValue (fmt : Fmt) {x : F32} (hx : ¬ (f32Exp x = 0xFF#8 ∧ f32Man x ≠ 0#23)) :
    2 ^ fmt.w0 * |clippedValue fmt x| =
      (keptField fmt (clip fmt x) * 2 ^ fmt.w0 + (discField fmt (clip fmt x)).toNat +
        lostPart fmt (clip fmt x)) * stepValue fmt (clip fmt x) := by
  have hstep := stepValue_pos fmt (clip fmt x)
  rw [clippedValue_eq_steps fmt hx, abs_signFactor_mul _ (by positivity), ← steps_mul_range]
  ring

/-- Settles O35: the sums and the clipped input differ by `lostPart` of a step, which is 0 without sticky and lies
strictly between 0 and 1 with it. -/
theorem encodeSrMeanIsTheClippedInputButForSticky : Obligations.EncodeSrMeanIsTheClippedInputButForSticky := by
  unfold Obligations.EncodeSrMeanIsTheClippedInputButForSticky
  intro fmt x s hx
  have hsum := sum_abs_valF_fp8Encode fmt hx
  have hclip := range_mul_abs_clippedValue fmt hx
  have hstep := stepValue_pos fmt (clip fmt x)
  refine ⟨fun rnd => fp8Encode fmt x .sr rnd, fun rnd => exec_of_wf rfl s, hsum, fun hsticky => ?_, fun hsticky => ?_⟩
  · have hlost := lostPart_of_not_sticky hsticky
    constructor
    · rw [sum_valF_fp8Encode fmt hx, range_mul_clippedValue fmt hx, hlost, add_zero]
    · rw [hsum, hclip, hlost, add_zero]
  · have hpos := mul_pos (lostPart_pos_of_sticky hsticky) hstep
    have hlt := mul_lt_mul_of_pos_right (lostPart_lt_one fmt (clip fmt x)) hstep
    rw [hsum, hclip, add_mul _ (lostPart fmt (clip fmt x))]
    exact ⟨targetExponent_le_of_sticky hsticky, by linarith, by linarith⟩

end Sys2Proof.Proofs.EncodeMean
end

section
/-! PROOF. The cases of ENCODE (42_encoder.md §2, §3): NaN, the clip and its saturation, the sign, the random bits. A
word that is not NaN encodes as its sign and the rounded magnitude of its clipped magnitude field. -/

namespace Sys2Proof.Proofs.EncodeCases

open Sys2Proof Sys2Proof.Machine Sys2Proof.Proofs.CallQueue Sys2Proof.Proofs.MagnitudeOrder
  Sys2Proof.Proofs.CodeClasses Sys2Proof.Proofs.Convert Sys2Proof.Proofs.Rounding Sys2Proof.Proofs.EncodeValue
  Sys2Proof.Proofs.EncodeMean

/-! ## The call, and a NaN -/

/-- ENCODE of either mode gives back the code of `fp8Encode`. -/
theorem exec_encodeCall (fmt : Fmt) (mode : RoundMode) (x : F32) (rnd : Word) (s : State) :
    exec (encodeCall fmt mode x rnd) s =
      .next (s.returning (encodeCall fmt mode x rnd) (.encoded (fp8Encode fmt x mode rnd))) := by
  cases mode with
  | rne => exact exec_of_wf rfl s
  | sr => exact exec_of_wf rfl s

/-- Settles O24: step 1 of the encoder answers a NaN. -/
theorem encodeOfNaNIsTheSentinel : Obligations.EncodeOfNaNIsTheSentinel := by
  unfold Obligations.EncodeOfNaNIsTheSentinel
  intro fmt mode x rnd s hexp hman
  have hcode : fp8Encode fmt x mode rnd = 0x80#8 := if_pos ((cls_eq_nan_iff x).mpr ⟨hexp, hman⟩)
  rw [exec_encodeCall, hcode]

/-- Settles O36: it is `fp8Encode_fp8Decode`, in the words of the two calls. -/
theorem encodeOfDecodeIsTheCode : Obligations.EncodeOfDecodeIsTheCode := by
  unfold Obligations.EncodeOfDecodeIsTheCode
  intro fmt q mode c rnd s _
  refine ⟨fp8Decode fmt q c, exec_of_wf rfl s, fun t => ?_⟩
  rw [exec_encodeCall, fp8Encode_fp8Decode]

/-! ## The clip -/

/-- A word up to MAX is finite. -/
theorem not_nan_of_le_maxBits {fmt : Fmt} {x : F32} (hle : (f32Mag x).toNat ≤ (f32Mag fmt.maxBits).toNat) :
    ¬ (f32Exp x = 0xFF#8 ∧ f32Man x ≠ 0#23) := by
  rintro ⟨hexp, -⟩
  have hmax : (f32Mag fmt.maxBits).toNat < 255 * 2 ^ 23 := by cases fmt <;> decide
  have hexp255 : (f32Exp x).toNat = 255 := by rw [hexp]; rfl
  rw [f32Mag_toNat] at hle
  omega

/-- Words with exponent fields up to 127 − bias, around and below the smallest normal of the format, are below MAX. -/
theorem f32Mag_le_maxBits_of_f32Exp_le {fmt : Fmt} {x : F32} (hexp : (f32Exp x).toNat ≤ 127 - fmt.bias) :
    (f32Mag x).toNat ≤ (f32Mag fmt.maxBits).toNat := by
  have hman := (f32Man x).isLt
  have heb : 2 ≤ 2 ^ fmt.eb := by cases fmt <;> decide
  have hbias := fmt.bias_le
  rw [f32Mag_maxBits, f32Mag_toNat]
  omega

theorem magnitude32_of_le_maxBits {fmt : Fmt} {x : F32} (hle : (f32Mag x).toNat ≤ (f32Mag fmt.maxBits).toNat) :
    magnitude32 x = ((fieldMagnitude 23 127 (f32Mag x).toNat : ℚ) : WithTop ℚ) := by
  have hmax : (f32Mag fmt.maxBits).toNat < 0x7F800000 := by cases fmt <;> decide
  have hfinite : (decompose x).cls ≠ .inf := fun hinf => by
    have hmag := (f32Mag_le_of_not_nan (not_nan_of_le_maxBits hle)).2.mp hinf
    omega
  rw [magnitude32, if_neg hfinite, abs_finite32]

/-- MAX is the magnitude of its word. -/
theorem magnitude32_maxBits (fmt : Fmt) : magnitude32 fmt.maxBits = (maxFiniteValue fmt : WithTop ℚ) := by
  rw [magnitude32_of_le_maxBits le_rfl, fieldMagnitude_maxBits]

theorem f32Mag_clip_le (fmt : Fmt) (x : F32) : (f32Mag (clip fmt x)).toNat ≤ (f32Mag fmt.maxBits).toNat := by
  rw [f32Mag_clip]
  exact min_le_right _ _

/-- The clip keeps a magnitude up to MAX, an infinity not among them. -/
theorem clip_of_le {fmt : Fmt} {x : F32} (hle : (f32Mag x).toNat ≤ (f32Mag fmt.maxBits).toNat) : clip fmt x = x :=
  if_neg hle.not_gt

/-- A word up to MAX encodes as its sign and its rounded magnitude. -/
theorem fp8Encode_of_le_maxBits {fmt : Fmt} {x : F32} (hle : (f32Mag x).toNat ≤ (f32Mag fmt.maxBits).toNat)
    (mode : RoundMode) (rnd : Word) :
    fp8Encode fmt x mode rnd = packCode (f32Sign x) (roundedMagnitude fmt x mode rnd) := by
  rw [fp8Encode_eq_packCode fmt (not_nan_of_le_maxBits hle), clip_of_le hle]

section
variable (fmt : Fmt) {x : F32} (hx : ¬ (f32Exp x = 0xFF#8 ∧ f32Man x ≠ 0#23))
include hx

/-- Above MAX in value is above MAX in the magnitude field (R72, R142). -/
theorem maxFiniteValue_lt_magnitude32_iff :
    (maxFiniteValue fmt : WithTop ℚ) < magnitude32 x ↔ (f32Mag fmt.maxBits).toNat < (f32Mag x).toNat := by
  rw [← magnitude32_maxBits, magnitude32_lt_iff (not_nan_of_le_maxBits le_rfl) hx]

theorem magnitude32_le_maxFiniteValue_iff :
    magnitude32 x ≤ (maxFiniteValue fmt : WithTop ℚ) ↔ (f32Mag x).toNat ≤ (f32Mag fmt.maxBits).toNat := by
  rw [← not_lt, maxFiniteValue_lt_magnitude32_iff fmt hx, not_lt]

theorem maxFiniteValue_le_magnitude32_iff :
    (maxFiniteValue fmt : WithTop ℚ) ≤ magnitude32 x ↔ (f32Mag fmt.maxBits).toNat ≤ (f32Mag x).toNat := by
  rw [← magnitude32_maxBits, ← not_lt, magnitude32_lt_iff hx (not_nan_of_le_maxBits le_rfl), not_lt]

end

/-- Settles O25: the integer test of the clip is the comparison with MAX, and its real value is
`clippedValue_eq_finite32_clip`. -/
theorem clipIsTheMagnitudeClip : Obligations.ClipIsTheMagnitudeClip := by
  unfold Obligations.ClipIsTheMagnitudeClip
  intro fmt x hx
  have hle := f32Mag_clip_le fmt x
  refine ⟨fun habove => ?_, fun hbelow => ?_, ?_, (clippedValue_eq_finite32_clip fmt hx).symm⟩
  · exact if_pos ((maxFiniteValue_lt_magnitude32_iff fmt hx).mp habove)
  · exact clip_of_le ((magnitude32_le_maxFiniteValue_iff fmt hx).mp hbelow)
  · exact (magnitude32_le_maxFiniteValue_iff fmt (not_nan_of_le_maxBits hle)).mpr hle

/-! ## The magnitude code before rounding is the largest one not above the input -/

theorem wholeDiscarded_lt (fmt : Fmt) (x : F32) : wholeDiscarded fmt x < 2 ^ (fmt.w0 + subnormalShift fmt x) :=
  Nat.mod_lt _ (by positivity)

/-- The discarded part of one step (R146). -/
def discardedPart (fmt : Fmt) (x : F32) : ℚ := wholeDiscarded fmt x / 2 ^ (fmt.w0 + subnormalShift fmt x)

theorem discardedPart_nonneg (fmt : Fmt) (x : F32) : 0 ≤ discardedPart fmt x := by
  unfold discardedPart
  positivity

theorem discardedPart_lt_one (fmt : Fmt) (x : F32) : discardedPart fmt x < 1 := by
  rw [discardedPart, div_lt_one (by positivity)]
  exact_mod_cast wholeDiscarded_lt fmt x

/-- R146: above the magnitude code before rounding lies the discarded part of a step. -/
theorem fieldMagnitude_eq_unrounded_add (fmt : Fmt) (x : F32) :
    fieldMagnitude 23 127 (f32Mag x).toNat =
      fieldMagnitude fmt.mb fmt.bias (unroundedMagnitude fmt x) + discardedPart fmt x * stepValue fmt x := by
  rw [fieldMagnitude_eq_steps fmt, fieldMagnitude_unroundedMagnitude, discardedPart, add_mul]

/-- R146: the next magnitude code is one step up, carries included. -/
theorem fieldMagnitude_unrounded_succ (fmt : Fmt) (x : F32) :
    fieldMagnitude fmt.mb fmt.bias (unroundedMagnitude fmt x + 1) =
      fieldMagnitude fmt.mb fmt.bias (unroundedMagnitude fmt x) + stepValue fmt x := by
  rw [fieldMagnitude_succ, ulp_unroundedMagnitude]

/-- The input lies between the two neighbours that the encoder chooses from. -/
theorem fieldMagnitude_mem_neighbours (fmt : Fmt) (x : F32) :
    fieldMagnitude fmt.mb fmt.bias (unroundedMagnitude fmt x) ≤ fieldMagnitude 23 127 (f32Mag x).toNat ∧
    fieldMagnitude 23 127 (f32Mag x).toNat < fieldMagnitude fmt.mb fmt.bias (unroundedMagnitude fmt x + 1) := by
  have hstep := stepValue_pos fmt x
  rw [fieldMagnitude_eq_unrounded_add fmt, fieldMagnitude_unrounded_succ]
  constructor
  · exact le_add_of_nonneg_right (mul_nonneg (discardedPart_nonneg fmt x) hstep.le)
  · have hlt := mul_lt_mul_of_pos_right (discardedPart_lt_one fmt x) hstep
    linarith

theorem unroundedMagnitude_lt_iff (fmt : Fmt) (x : F32) (n : Nat) :
    unroundedMagnitude fmt x < n ↔ fieldMagnitude 23 127 (f32Mag x).toNat < fieldMagnitude fmt.mb fmt.bias n := by
  have hmono := fieldMagnitude_strictMono fmt.mb fmt.bias
  obtain ⟨hle, hlt⟩ := fieldMagnitude_mem_neighbours fmt x
  constructor
  · intro hn
    exact hlt.trans_le (hmono.monotone hn)
  · intro hn
    exact hmono.lt_iff_lt.mp (hle.trans_lt hn)

theorem le_unroundedMagnitude_iff (fmt : Fmt) (x : F32) (n : Nat) :
    n ≤ unroundedMagnitude fmt x ↔ fieldMagnitude fmt.mb fmt.bias n ≤ fieldMagnitude 23 127 (f32Mag x).toNat := by
  rw [← not_lt, unroundedMagnitude_lt_iff, not_lt]

theorem unroundedMagnitude_le_roundedMagnitude (fmt : Fmt) (x : F32) (mode : RoundMode) (rnd : Word) :
    unroundedMagnitude fmt x ≤ roundedMagnitude fmt x mode rnd := by
  rw [roundedMagnitude_eq]
  exact Nat.le_add_right _ _

/-! ## Saturation -/

/-- At MAX the magnitude code is the largest one, so rounding leaves it (R149). -/
theorem roundedMagnitude_clip_of_ge {fmt : Fmt} {x : F32} (hge : (f32Mag fmt.maxBits).toNat ≤ (f32Mag x).toNat)
    (mode : RoundMode) (rnd : Word) : roundedMagnitude fmt (clip fmt x) mode rnd = 127 := by
  have hmax : 127 ≤ unroundedMagnitude fmt (clip fmt x) := by
    rw [le_unroundedMagnitude_iff, f32Mag_clip, min_eq_right hge, fieldMagnitude_maxBits, fieldMagnitude_maxCode]
  exact le_antisymm (roundedMagnitude_clip_le fmt x mode rnd)
    (hmax.trans (unroundedMagnitude_le_roundedMagnitude fmt _ mode rnd))

theorem packCode_127 (sign : Bit) : packCode sign 127 = if sign = 1#1 then 0xFF#8 else 0x7F#8 := by
  decide +revert

/-- R142, R159: a magnitude of MAX or more encodes as the largest magnitude code with its sign. -/
theorem fp8Encode_of_ge_maxBits (fmt : Fmt) {x : F32} (hx : ¬ (f32Exp x = 0xFF#8 ∧ f32Man x ≠ 0#23))
    (hge : (f32Mag fmt.maxBits).toNat ≤ (f32Mag x).toNat) (mode : RoundMode) (rnd : Word) :
    fp8Encode fmt x mode rnd = if f32Sign x = 1#1 then 0xFF#8 else 0x7F#8 := by
  rw [fp8Encode_eq_packCode fmt hx, roundedMagnitude_clip_of_ge hge, packCode_127]

/-- Settles O26: MAX or more in value is MAX or more in the magnitude field. -/
theorem encodeSaturatesAtMax : Obligations.EncodeSaturatesAtMax := by
  unfold Obligations.EncodeSaturatesAtMax
  intro fmt mode x rnd s hx hmax
  rw [exec_encodeCall, fp8Encode_of_ge_maxBits fmt hx ((maxFiniteValue_le_magnitude32_iff fmt hx).mp hmax)]

/-- Settles O27: the magnitude field of an infinity is above MAX. -/
theorem encodeOfInfinitySaturates : Obligations.EncodeOfInfinitySaturates := by
  unfold Obligations.EncodeOfInfinitySaturates
  intro fmt mode rnd s
  have hpos : (f32Mag fmt.maxBits).toNat ≤ (f32Mag 0x7F800000#32).toNat := by cases fmt <;> decide
  have hneg : (f32Mag fmt.maxBits).toNat ≤ (f32Mag 0xFF800000#32).toNat := by cases fmt <;> decide
  constructor
  · rw [exec_encodeCall, fp8Encode_of_ge_maxBits fmt (by decide) hpos, if_neg (by decide)]
  · rw [exec_encodeCall, fp8Encode_of_ge_maxBits fmt (by decide) hneg, if_pos (by decide)]

/-- Settles O28: the rounded magnitude is bounded by `roundedMagnitude_clip_le`, and on the normal path the target
exponent is its exponent field before rounding. -/
theorem saturationNeverFiresAfterTheClip : Obligations.SaturationNeverFiresAfterTheClip := by
  unfold Obligations.SaturationNeverFiresAfterTheClip
  intro fmt x mode rnd _
  have hle := roundedMagnitude_clip_le fmt x mode rnd
  refine ⟨hle, ?_⟩
  have hfield : exponentField fmt (clip fmt x) < 2 ^ fmt.eb := by
    have hlt := (unroundedMagnitude_le_roundedMagnitude fmt (clip fmt x) mode rnd).trans hle
    rw [← (unroundedMagnitude_div_mod fmt (clip fmt x)).1, Nat.div_lt_iff_lt_mul (by positivity), ← pow_add,
      fmt.eb_add_mb]
    omega
  have hfield' : (exponentField fmt (clip fmt x) : ℤ) < 2 ^ fmt.eb := by exact_mod_cast hfield
  have htarget : targetExponent fmt (clip fmt x) ≤ exponentField fmt (clip fmt x) := by
    unfold exponentField
    split <;> omega
  omega

/-! ## The sentinel is for NaN only -/

theorem packCode_of_ne_zero (sign : Bit) {mag : Nat} (h0 : mag ≠ 0) :
    packCode sign mag = codeJoin sign (BitVec.ofNat 7 mag) :=
  if_neg h0

theorem codeMag_packCode (sign : Bit) {mag : Nat} (hmag : mag ≤ 127) : (codeMag (packCode sign mag)).toNat = mag := by
  by_cases h0 : mag = 0
  · rw [h0, packCode_zero]
    rfl
  · rw [packCode_of_ne_zero sign h0, codeMag_codeJoin, BitVec.toNat_ofNat, Nat.mod_eq_of_lt (by omega)]

theorem packCode_eq_zero_iff (sign : Bit) {mag : Nat} (hmag : mag ≤ 127) :
    packCode sign mag = zeroCode ↔ mag = 0 := by
  constructor
  · intro hzero
    rw [← codeMag_packCode sign hmag, hzero]
    rfl
  · rintro rfl
    exact packCode_zero sign

/-- The sentinel has magnitude code 0, and a magnitude code 0 is packed as 0x00 (R150). -/
theorem packCode_ne_nanCode (sign : Bit) {mag : Nat} (hmag : mag ≤ 127) : packCode sign mag ≠ nanCode := by
  intro hnan
  have h0 : mag = 0 := by rw [← codeMag_packCode sign hmag, hnan]; rfl
  rw [h0, packCode_zero] at hnan
  exact absurd hnan (by decide)

theorem fp8Encode_ne_nanCode (fmt : Fmt) {x : F32} (hx : ¬ (f32Exp x = 0xFF#8 ∧ f32Man x ≠ 0#23)) (mode : RoundMode)
    (rnd : Word) : fp8Encode fmt x mode rnd ≠ nanCode := by
  rw [fp8Encode_eq_packCode fmt hx]
  exact packCode_ne_nanCode _ (roundedMagnitude_clip_le fmt x mode rnd)

/-- Settles O33: both values are known in steps with the sign of the input, which the absolute value drops. -/
theorem encodeChoosesBetweenTheTwoNeighbours : Obligations.EncodeChoosesBetweenTheTwoNeighbours := by
  unfold Obligations.EncodeChoosesBetweenTheTwoNeighbours
  intro fmt mode x rnd s hx
  have hstep := stepValue_pos fmt (clip fmt x)
  refine ⟨?_, fp8Encode fmt x mode rnd, exec_encodeCall fmt mode x rnd s, fp8Encode_ne_nanCode fmt hx mode rnd, ?_⟩
  · rw [clippedValue_eq_steps fmt hx, abs_signFactor_mul _ (by positivity)]
  · rw [valF_fp8Encode fmt hx, abs_signFactor_mul _ (by positivity)]

/-! ## The sign -/

/-- Steps 3 to 6 read the magnitude field alone (R157). -/
theorem roundedMagnitude_congr {x y : F32} (hmag : f32Mag x = f32Mag y) (fmt : Fmt) (mode : RoundMode) (rnd : Word) :
    roundedMagnitude fmt x mode rnd = roundedMagnitude fmt y mode rnd := by
  have hsig : significand x = significand y := by rw [significand_eq, significand_eq, hmag]
  have hT : targetExponent fmt x = targetExponent fmt y := by
    rw [targetExponent, targetExponent, sourceExponent_eq, sourceExponent_eq, hmag]
  have hshift : subnormalShift fmt x = subnormalShift fmt y := by simp only [subnormalShift, hT]
  simp only [roundedMagnitude, roundUp, exponentField, mantissaField, keptField, discField, stickyField,
    hsig, hT, hshift]

theorem f32Mag_clip_congr {x y : F32} (hmag : f32Mag x = f32Mag y) (fmt : Fmt) :
    f32Mag (clip fmt x) = f32Mag (clip fmt y) :=
  BitVec.eq_of_toNat_eq (by rw [f32Mag_clip, f32Mag_clip, hmag])

theorem f32Sign_negate (x : F32) : f32Sign (x ^^^ 0x80000000#32) = f32Sign x ^^^ 1#1 :=
  BitVec.extractLsb'_xor

theorem f32Mag_negate (x : F32) : f32Mag (x ^^^ 0x80000000#32) = f32Mag x := by
  have hzero : f32Mag 0x80000000#32 = 0#31 := by decide
  calc f32Mag (x ^^^ 0x80000000#32) = f32Mag x ^^^ f32Mag 0x80000000#32 := BitVec.extractLsb'_xor
    _ = f32Mag x := by rw [hzero, BitVec.xor_zero]

theorem not_nan_negate {x : F32} (hx : ¬ (f32Exp x = 0xFF#8 ∧ f32Man x ≠ 0#23)) :
    ¬ (f32Exp (x ^^^ 0x80000000#32) = 0xFF#8 ∧ f32Man (x ^^^ 0x80000000#32) ≠ 0#23) := by
  simpa only [ne_eq, ← BitVec.toNat_inj, f32Exp_toNat, f32Man_toNat, f32Mag_negate] using hx

/-- Flipping the sign of a code that is not zero flips its bit 7. -/
theorem packCode_negate (sign : Bit) {mag : Nat} (hmag : mag ≤ 127) :
    packCode (sign ^^^ 1#1) mag =
      if packCode sign mag = zeroCode then zeroCode else packCode sign mag ^^^ 0x80#8 := by
  by_cases h0 : mag = 0
  · rw [h0, packCode_zero, packCode_zero, if_pos rfl]
  · have hflip : (0x80#8 : Code) = 1#1 ++ 0#7 := by decide
    rw [if_neg ((packCode_eq_zero_iff sign hmag).not.mpr h0), packCode_of_ne_zero _ h0, packCode_of_ne_zero _ h0,
      codeJoin, codeJoin, hflip, BitVec.xor_append, BitVec.xor_zero]

/-- R157: negating the input negates the code. -/
theorem fp8Encode_negate (fmt : Fmt) {x : F32} (hx : ¬ (f32Exp x = 0xFF#8 ∧ f32Man x ≠ 0#23)) (mode : RoundMode)
    (rnd : Word) :
    fp8Encode fmt (x ^^^ 0x80000000#32) mode rnd =
      if fp8Encode fmt x mode rnd = zeroCode then zeroCode else fp8Encode fmt x mode rnd ^^^ 0x80#8 := by
  have hmag := roundedMagnitude_congr (f32Mag_clip_congr (f32Mag_negate x) fmt) fmt mode rnd
  rw [fp8Encode_eq_packCode fmt hx, fp8Encode_eq_packCode fmt (not_nan_negate hx), hmag, f32Sign_negate,
    packCode_negate _ (roundedMagnitude_clip_le fmt x mode rnd)]

theorem codeSign_packCode {sign : Bit} {mag : Nat} (hne : packCode sign mag ≠ zeroCode) :
    codeSign (packCode sign mag) = sign := by
  have h0 : mag ≠ 0 := fun h0 => hne (by rw [h0, packCode_zero])
  rw [packCode_of_ne_zero sign h0, codeSign_codeJoin]

/-- Settles O31: the sign is packed above the magnitude, which does not depend on it. -/
theorem encodeKeepsTheSign : Obligations.EncodeKeepsTheSign := by
  unfold Obligations.EncodeKeepsTheSign
  intro fmt mode x rnd s hx
  refine ⟨fp8Encode fmt x mode rnd, exec_encodeCall fmt mode x rnd s, fun hne => ?_, ?_⟩
  · rw [fp8Encode_eq_packCode fmt hx] at hne ⊢
    exact codeSign_packCode hne
  · rw [exec_encodeCall, fp8Encode_negate fmt hx]
    rfl

/-! ## The random bits -/

/-- The mode and the random value reach the code through the rounding decision only (R152). -/
theorem fp8Encode_congr_roundUp {fmt : Fmt} {mode : RoundMode} {rnd rnd' : Word}
    (hup : ∀ y : F32, roundUp fmt y mode rnd = roundUp fmt y mode rnd') (x : F32) :
    fp8Encode fmt x mode rnd = fp8Encode fmt x mode rnd' := by
  simp only [fp8Encode, encodeClipped, roundedMagnitude, hup]

/-- The SR decision depends on the low w0 bits alone (R127). -/
theorem roundStochastic_congr {fmt : Fmt} {rnd rnd' : Word} (hlow : srValue fmt rnd = srValue fmt rnd')
    (disc : BitVec 21) : roundStochastic fmt disc rnd = roundStochastic fmt disc rnd' := by
  rw [roundStochastic, roundStochastic, hlow]

theorem srValue_ofNat_srValue (fmt : Fmt) (rnd : Word) :
    srValue fmt (BitVec.ofNat 32 (srValue fmt rnd)) = srValue fmt rnd :=
  srValue_ofNat (Nat.mod_lt _ (by positivity))

/-- Settles O32: RNE decides without rnd, and SR decides alike for rnd and for its low w0 bits. -/
theorem encodeUsesOnlyTheLowRandomBits : Obligations.EncodeUsesOnlyTheLowRandomBits := by
  unfold Obligations.EncodeUsesOnlyTheLowRandomBits
  intro fmt x s
  refine ⟨fp8Encode fmt x .rne 0#32, fun r => fp8Encode fmt x .sr (BitVec.ofNat 32 r), fun rnd => ?_, fun rnd => ?_⟩
  · have hcode : fp8Encode fmt x .rne rnd = fp8Encode fmt x .rne 0#32 := fp8Encode_congr_roundUp (fun _ => rfl) x
    rw [← hcode]
    exact exec_of_wf rfl s
  · have hlow : ∀ y, roundUp fmt y .sr (BitVec.ofNat 32 (srValue fmt rnd)) = roundUp fmt y .sr rnd := fun y =>
      roundStochastic_congr (srValue_ofNat_srValue fmt rnd) (discField fmt y)
    have hcode : fp8Encode fmt x .sr (BitVec.ofNat 32 (rnd.toNat % 2 ^ fmt.w0)) = fp8Encode fmt x .sr rnd :=
      fp8Encode_congr_roundUp hlow x
    beta_reduce
    rw [hcode]
    exact exec_of_wf rfl s

end Sys2Proof.Proofs.EncodeCases
end

section
/-! PROOF. ENCODE.RNE is correctly rounded (42_encoder.md R154), and what that gives near zero (R150, R156, R159). The
magnitude codes are a strictly increasing grid of magnitudes, and RNE takes the nearer of the two grid points around its
input; every other code lies beyond one of these two. -/

namespace Sys2Proof.Proofs.EncodeNearest

open Sys2Proof Sys2Proof.Machine Sys2Proof.Proofs.CallQueue Sys2Proof.Proofs.MagnitudeOrder
  Sys2Proof.Proofs.CodeClasses Sys2Proof.Proofs.Convert Sys2Proof.Proofs.Rounding Sys2Proof.Proofs.EncodeValue
  Sys2Proof.Proofs.EncodeMean Sys2Proof.Proofs.EncodeCases

/-! ## Rounding to the nearest point of a grid -/

/-- `r` is the one of the neighbours `u` and `u + 1` that round to nearest, ties to even, chooses for `v`. -/
def RoundsToNearestEven (grid : ℕ → ℚ) (v : ℚ) (u r : ℕ) : Prop :=
  (r = u ∧ v - grid u ≤ grid (u + 1) - v ∧ (v - grid u = grid (u + 1) - v → u % 2 = 0)) ∨
  (r = u + 1 ∧ grid (u + 1) - v ≤ v - grid u ∧ (grid (u + 1) - v = v - grid u → u % 2 = 1))

section
variable {grid : ℕ → ℚ} {v : ℚ} {u r n : ℕ}

theorem RoundsToNearestEven.eq_of_even (hr : RoundsToNearestEven grid v u r) (hv : v - grid u ≤ grid (u + 1) - v)
    (hu : u % 2 = 0) : r = u := by
  rcases hr with ⟨rfl, -, -⟩ | ⟨-, hle, heven⟩
  · rfl
  · have hodd := heven (le_antisymm hle hv)
    omega

theorem RoundsToNearestEven.eq_succ_of_odd (hr : RoundsToNearestEven grid v u r)
    (hv : grid (u + 1) - v ≤ v - grid u) (hu : u % 2 = 1) : r = u + 1 := by
  rcases hr with ⟨-, hle, heven⟩ | ⟨rfl, -, -⟩
  · have heven' := heven (le_antisymm hle hv)
    omega
  · rfl

variable (hgrid : StrictMono grid) (hlower : grid u ≤ v) (hupper : v < grid (u + 1))

include hgrid hlower in
theorem distance_of_le (hn : n ≤ u) : |grid n - v| = v - grid n := by
  have hle := hgrid.monotone hn
  rw [abs_of_nonpos (by linarith), neg_sub]

include hgrid hupper in
theorem distance_of_lt (hn : u + 1 ≤ n) : |grid n - v| = grid n - v := by
  have hle := hgrid.monotone hn
  rw [abs_of_nonneg (by linarith)]

include hgrid hlower hupper

/-- The chosen neighbour is at most half the gap away. -/
theorem RoundsToNearestEven.distance_le_half (hr : RoundsToNearestEven grid v u r) :
    |grid r - v| ≤ (grid (u + 1) - grid u) / 2 := by
  rcases hr with ⟨rfl, hle, -⟩ | ⟨rfl, hle, -⟩
  · rw [distance_of_le hgrid hlower le_rfl]
    linarith
  · rw [distance_of_lt hgrid hupper le_rfl]
    linarith

/-- No grid point is nearer than the chosen neighbour. -/
theorem RoundsToNearestEven.distance_le (hr : RoundsToNearestEven grid v u r) (n : ℕ) :
    |grid r - v| ≤ |grid n - v| := by
  have hother : v - grid u ≤ |grid n - v| ∨ grid (u + 1) - v ≤ |grid n - v| := by
    rcases Nat.lt_or_ge u n with hn | hn
    · rw [distance_of_lt hgrid hupper hn]
      exact .inr (sub_le_sub_right (hgrid.monotone hn) v)
    · rw [distance_of_le hgrid hlower hn]
      exact .inl (sub_le_sub_left (hgrid.monotone hn) v)
  rcases hr with ⟨rfl, hle, -⟩ | ⟨rfl, hle, -⟩
  · rw [distance_of_le hgrid hlower le_rfl]
    exact hother.elim id hle.trans
  · rw [distance_of_lt hgrid hupper le_rfl]
    exact hother.elim hle.trans id

/-- Where the chosen neighbour is odd there was no tie, so every other grid point is farther. -/
theorem RoundsToNearestEven.distance_lt_of_odd (hr : RoundsToNearestEven grid v u r) (hodd : r % 2 = 1) (hn : n ≠ r) :
    |grid r - v| < |grid n - v| := by
  rcases hr with ⟨rfl, hle, heven⟩ | ⟨rfl, hle, heven⟩
  · have hlt := lt_of_le_of_ne hle fun htie => by have := heven htie; omega
    rw [distance_of_le hgrid hlower le_rfl]
    rcases hn.lt_or_gt with hn | hn
    · rw [distance_of_le hgrid hlower hn.le]
      exact sub_lt_sub_left (hgrid hn) v
    · rw [distance_of_lt hgrid hupper hn]
      exact hlt.trans_le (sub_le_sub_right (hgrid.monotone hn) v)
  · have hlt := lt_of_le_of_ne hle fun htie => by have := heven htie; omega
    rw [distance_of_lt hgrid hupper le_rfl]
    rcases hn.lt_or_gt with hn | hn
    · have hn' := Nat.le_of_lt_succ hn
      rw [distance_of_le hgrid hlower hn']
      exact hlt.trans_le (sub_le_sub_left (hgrid.monotone hn') v)
    · rw [distance_of_lt hgrid hupper hn.le]
      exact sub_lt_sub_right (hgrid hn) v

end

/-! ## The decision of RNE in magnitudes -/

/-- Twice the discarded field against its range is the distance to the lower neighbour against that to the upper. -/
theorem neighbour_distances (fmt : Fmt) (x : F32) :
    (fieldMagnitude 23 127 (f32Mag x).toNat - fieldMagnitude fmt.mb fmt.bias (unroundedMagnitude fmt x)) -
      (fieldMagnitude fmt.mb fmt.bias (unroundedMagnitude fmt x + 1) - fieldMagnitude 23 127 (f32Mag x).toNat) =
      (2 * wholeDiscarded fmt x - 2 ^ (fmt.w0 + subnormalShift fmt x)) *
        (stepValue fmt x / 2 ^ (fmt.w0 + subnormalShift fmt x)) := by
  rw [fieldMagnitude_eq_unrounded_add fmt, fieldMagnitude_unrounded_succ, discardedPart]
  field_simp
  ring

/-- The implicit bit stands above the lowest kept bit (R121). -/
theorem keptField_mod_two (fmt : Fmt) (x : F32) : keptField fmt x % 2 = unroundedMagnitude fmt x % 2 := by
  have hdvd : 2 ∣ 2 ^ fmt.mb := by cases fmt <;> decide
  rw [← fieldSignificand_unroundedMagnitude, fieldSignificand, Nat.add_mod, Nat.mod_mod_of_dvd _ hdvd]
  split <;> omega

/-- R147: RNE decides on the whole discarded field. -/
theorem roundUp_rne_eq_one_iff (fmt : Fmt) (x : F32) (rnd : Word) :
    roundUp fmt x .rne rnd = 1#1 ↔
      2 ^ (fmt.w0 + subnormalShift fmt x) < 2 * wholeDiscarded fmt x ∨
      (2 * wholeDiscarded fmt x = 2 ^ (fmt.w0 + subnormalShift fmt x) ∧ unroundedMagnitude fmt x % 2 = 1) := by
  have hrest : stickyField fmt x = stickyOf (wholeDiscarded fmt x) (subnormalShift fmt x) := by
    rw [stickyField, stickyOf, stickyOf, wholeDiscarded, Nat.mod_mod_of_dvd _ (Nat.pow_dvd_pow 2 (Nat.le_add_left _ _))]
  have hdisc : (discField fmt x).toNat = wholeDiscarded fmt x / 2 ^ subnormalShift fmt x := by
    rw [discField_toNat, wholeDiscarded, add_comm fmt.w0, pow_add, Nat.mod_mul_right_div_self]
  rw [← keptField_mod_two, ← roundNearest_whole_field _ hdisc, ← hrest]
  rfl

/-- R148: the magnitude code after the decision. -/
theorem roundedMagnitude_eq_ite (fmt : Fmt) (x : F32) (mode : RoundMode) (rnd : Word) :
    roundedMagnitude fmt x mode rnd =
      if roundUp fmt x mode rnd = 1#1 then unroundedMagnitude fmt x + 1 else unroundedMagnitude fmt x := by
  rw [roundedMagnitude_eq]
  split
  case isTrue hup => rw [hup]; rfl
  case isFalse hup => rw [(bit_eq_zero_iff_ne_one _).mpr hup]; rfl

/-- R154: RNE rounds the magnitude to the nearest magnitude code, ties to even. -/
theorem roundedMagnitude_rne (fmt : Fmt) (x : F32) (rnd : Word) :
    RoundsToNearestEven (fieldMagnitude fmt.mb fmt.bias) (fieldMagnitude 23 127 (f32Mag x).toNat)
      (unroundedMagnitude fmt x) (roundedMagnitude fmt x .rne rnd) := by
  have hdist := neighbour_distances fmt x
  have hunit : 0 < stepValue fmt x / 2 ^ (fmt.w0 + subnormalShift fmt x) := by
    have hstep := stepValue_pos fmt x
    positivity
  have hup := roundUp_rne_eq_one_iff fmt x rnd
  rw [roundedMagnitude_eq_ite]
  rcases lt_trichotomy (2 * wholeDiscarded fmt x) (2 ^ (fmt.w0 + subnormalShift fmt x)) with hD | hD | hD
  · have hD' : (2 * wholeDiscarded fmt x : ℚ) < 2 ^ (fmt.w0 + subnormalShift fmt x) := by exact_mod_cast hD
    have hneg := mul_neg_of_neg_of_pos (sub_neg.mpr hD') hunit
    rw [if_neg (by rw [hup]; omega)]
    exact .inl ⟨rfl, by linarith, fun htie => by linarith⟩
  · have hD' : (2 * wholeDiscarded fmt x : ℚ) = 2 ^ (fmt.w0 + subnormalShift fmt x) := by exact_mod_cast hD
    rw [hD', sub_self, zero_mul] at hdist
    by_cases hodd : unroundedMagnitude fmt x % 2 = 1
    · rw [if_pos (hup.mpr (.inr ⟨hD, hodd⟩))]
      exact .inr ⟨rfl, by linarith, fun _ => hodd⟩
    · rw [if_neg (by rw [hup]; omega)]
      exact .inl ⟨rfl, by linarith, fun _ => by omega⟩
  · have hD' : (2 ^ (fmt.w0 + subnormalShift fmt x) : ℚ) < 2 * wholeDiscarded fmt x := by exact_mod_cast hD
    have hpos := mul_pos (sub_pos.mpr hD') hunit
    rw [if_pos (hup.mpr (.inl hD))]
    exact .inr ⟨rfl, by linarith, fun htie => by linarith⟩

/-! ## The nearest code -/

/-- Signs only add to the distance of two magnitudes. -/
theorem abs_sub_le_abs_signFactor_mul_sub (sign sign' : Bit) {a b : ℚ} (ha : 0 ≤ a) (hb : 0 ≤ b) :
    |a - b| ≤ |signFactor sign * a - signFactor sign' * b| := by
  have hle := abs_abs_sub_abs_le (signFactor sign * a) (signFactor sign' * b)
  rwa [abs_signFactor_mul _ ha, abs_signFactor_mul _ hb] at hle

theorem abs_signFactor_mul_sub (sign : Bit) (a b : ℚ) :
    |signFactor sign * a - signFactor sign * b| = |a - b| := by
  rw [← mul_sub, abs_mul, abs_signFactor, one_mul]

/-- Across zero the distance is the sum of the magnitudes. -/
theorem abs_signFactor_mul_sub_of_ne {sign sign' : Bit} (hsign : sign ≠ sign') {a b : ℚ} (ha : 0 ≤ a) (hb : 0 ≤ b) :
    |signFactor sign * a - signFactor sign' * b| = a + b := by
  have hopposite : signFactor sign' = -signFactor sign := by
    have hcases : ∀ b b' : Bit, b ≠ b' → (b = 1#1 ∧ b' ≠ 1#1) ∨ (b ≠ 1#1 ∧ b' = 1#1) := by decide
    unfold signFactor
    rcases hcases sign sign' hsign with ⟨h, h'⟩ | ⟨h, h'⟩
    · rw [if_pos h, if_neg h', neg_neg]
    · rw [if_neg h, if_pos h']
  rw [hopposite, neg_mul, sub_neg_eq_add, ← mul_add, abs_signFactor_mul _ (add_nonneg ha hb)]

theorem getLsbD_zero_packCode (sign : Bit) {mag : Nat} (hmag : mag ≤ 127) :
    (packCode sign mag).getLsbD 0 = decide (mag % 2 = 1) := by
  have hlow := codeMag_packCode sign hmag
  rw [codeMag_toNat] at hlow
  have hparity : (packCode sign mag).toNat % 2 = mag % 2 := by omega
  rw [BitVec.getLsbD, Nat.testBit_zero, hparity]

theorem clippedValue_eq_signFactor_mul (fmt : Fmt) {x : F32} (hx : ¬ (f32Exp x = 0xFF#8 ∧ f32Man x ≠ 0#23)) :
    clippedValue fmt x = signFactor (f32Sign x) * fieldMagnitude 23 127 (f32Mag (clip fmt x)).toNat := by
  rw [clippedValue_eq_finite32_clip fmt hx, finite32_eq, f32Sign_clip]

/-- A code whose magnitude code is that of a packed code and whose sign is too is the packed code. -/
theorem eq_packCode {sign : Bit} {mag : Nat} (h0 : mag ≠ 0) {d : Code} (hsign : codeSign d = sign)
    (hmag : (codeMag d).toNat = mag) : d = packCode sign mag := by
  rw [packCode_of_ne_zero sign h0, ← hmag, BitVec.ofNat_toNat, BitVec.setWidth_eq, ← hsign, codeJoin_codeSign_codeMag]

/-- A code is at least as far from a signed magnitude as its magnitude is from that magnitude. -/
theorem distance_le_distance_valF (fmt : Fmt) (d : Code) (sign : Bit) {v : ℚ} (hv : 0 ≤ v) :
    |fieldMagnitude fmt.mb fmt.bias (codeMag d).toNat - v| ≤ |valF fmt d - signFactor sign * v| := by
  rw [valF_eq]
  exact abs_sub_le_abs_signFactor_mul_sub _ _ (fieldMagnitude_nonneg _ _ _) hv

/-- Where every other magnitude is farther, 0 among them, every other code is farther: the code of the same magnitude
and the other sign lies beyond 0. -/
theorem distance_lt_of_ne_packCode (fmt : Fmt) (sign : Bit) {mag : Nat} {v : ℚ} (hv : 0 ≤ v) (h0 : mag ≠ 0)
    (hfarther : ∀ n, n ≠ mag → |fieldMagnitude fmt.mb fmt.bias mag - v| < |fieldMagnitude fmt.mb fmt.bias n - v|)
    {d : Code} (hne : d ≠ packCode sign mag) :
    |fieldMagnitude fmt.mb fmt.bias mag - v| < |valF fmt d - signFactor sign * v| := by
  by_cases hmag : (codeMag d).toNat = mag
  · have hnonneg := fieldMagnitude_nonneg fmt.mb fmt.bias mag
    have hsign : codeSign d ≠ sign := fun hsign => hne (eq_packCode h0 hsign hmag)
    have hzero := hfarther 0 h0.symm
    rw [fieldMagnitude_zero, zero_sub, abs_neg, abs_of_nonneg hv] at hzero
    rw [valF_eq, hmag, abs_signFactor_mul_sub_of_ne hsign hnonneg hv]
    linarith
  · exact (hfarther _ hmag).trans_le (distance_le_distance_valF fmt d sign hv)

/-- Settles O34: `roundedMagnitude_rne` says that the magnitude is rounded to nearest even, and the signs only add to
the distance of any other code. -/
theorem encodeRneIsCorrectlyRounded : Obligations.EncodeRneIsCorrectlyRounded := by
  unfold Obligations.EncodeRneIsCorrectlyRounded
  intro fmt x rnd s hx
  have hgrid := fieldMagnitude_strictMono fmt.mb fmt.bias
  obtain ⟨hlower, hupper⟩ := fieldMagnitude_mem_neighbours fmt (clip fmt x)
  have hround := roundedMagnitude_rne fmt (clip fmt x) rnd
  have hr := roundedMagnitude_clip_le fmt x .rne rnd
  have hv := fieldMagnitude_nonneg 23 127 (f32Mag (clip fmt x)).toNat
  refine ⟨fp8Encode fmt x .rne rnd, exec_of_wf rfl s, fp8Encode_ne_nanCode fmt hx .rne rnd, ?_⟩
  rw [fp8Encode_eq_packCode fmt hx, valF_packCode fmt _ hr, clippedValue_eq_signFactor_mul fmt hx,
    abs_signFactor_mul_sub]
  refine ⟨?_, fun d _ => ⟨?_, fun htie hne => ?_⟩⟩
  · have hhalf := hround.distance_le_half hgrid hlower hupper
    rwa [fieldMagnitude_unrounded_succ, add_sub_cancel_left] at hhalf
  · exact (hround.distance_le hgrid hlower hupper _).trans (distance_le_distance_valF fmt d _ hv)
  · rw [getLsbD_zero_packCode _ hr, decide_eq_false_iff_not]
    intro hodd
    have hfarther := fun n hn => hround.distance_lt_of_odd (n := n) hgrid hlower hupper hodd hn
    exact (distance_lt_of_ne_packCode fmt _ hv (by omega) hfarther hne).ne htie

/-! ## Zero -/

/-- With disc = 0 neither mode rounds up, whatever sticky is: half of the range is above 0, and no random value is
below 0. -/
theorem roundDecide_disc_zero (fmt : Fmt) (keptLsb sticky : Bit) (mode : RoundMode) (rnd : Word) :
    roundDecide fmt keptLsb 0#21 sticky mode rnd = 0#1 := by
  have hhalf : 0 < halfDisc fmt := by unfold halfDisc; positivity
  cases mode with
  | rne => exact roundNearest_below_half keptLsb sticky hhalf
  | sr =>
    rw [roundDecide, bit_eq_zero_iff_ne_one, ne_eq, roundStochastic_eq_one_iff]
    exact Nat.not_lt_zero _

/-- A word whose exponent field is 0 is so far below the subnormals of the format that its whole significand is shifted
below disc (R156). -/
theorem roundedMagnitude_of_exp_zero (fmt : Fmt) {x : F32} (hexp : f32Exp x = 0x00#8) (mode : RoundMode) (rnd : Word) :
    roundedMagnitude fmt x mode rnd = 0 := by
  have hbias := fmt.bias_le
  have hT : targetExponent fmt x = -126 + fmt.bias := by rw [targetExponent, sourceExponent, if_pos hexp]
  have hT0 : ¬ 1 ≤ targetExponent fmt x := by omega
  have hshift : 24 ≤ subnormalShift fmt x := by
    rw [subnormalShift, if_neg hT0]
    omega
  have hsig : significand x < 2 ^ subnormalShift fmt x :=
    (significand_lt x).trans_le (Nat.pow_le_pow_right two_pos hshift)
  have hdisc : discField fmt x = 0#21 := by
    rw [discField, Nat.shiftRight_eq_div_pow, Nat.div_eq_of_lt hsig, Nat.zero_mod]
  have hkept : keptField fmt x = 0 := by
    rw [keptField, Nat.shiftRight_eq_div_pow,
      Nat.div_eq_of_lt (hsig.trans_le (Nat.pow_le_pow_right two_pos (Nat.le_add_left _ _)))]
  rw [roundedMagnitude_eq, unroundedMagnitude, exponentField, mantissaField, if_neg hT0, if_neg hT0, hkept, roundUp,
    hdisc, roundDecide_disc_zero, zero_mul]
  rfl

theorem fp8Encode_of_exp_zero (fmt : Fmt) {x : F32} (hexp : f32Exp x = 0x00#8) (mode : RoundMode) (rnd : Word) :
    fp8Encode fmt x mode rnd = zeroCode := by
  have hle : (f32Mag x).toNat ≤ (f32Mag fmt.maxBits).toNat := f32Mag_le_maxBits_of_f32Exp_le (by simp [hexp])
  rw [fp8Encode_of_le_maxBits hle, roundedMagnitude_of_exp_zero fmt hexp, packCode_zero]

/-- Settles O30: it is `fp8Encode_of_exp_zero`, which does not ask what the mantissa field is. -/
theorem encodeOfFloatSubnormalsIsZero : Obligations.EncodeOfFloatSubnormalsIsZero := by
  unfold Obligations.EncodeOfFloatSubnormalsIsZero
  intro fmt mode x rnd s hexp _
  rw [exec_encodeCall, fp8Encode_of_exp_zero fmt hexp]
  rfl

theorem valF_of_codeSign_zero (fmt : Fmt) {c : Code} (hsign : codeSign c = 0#1) :
    valF fmt c = fieldMagnitude fmt.mb fmt.bias (codeMag c).toNat := by
  rw [valF_eq, hsign, signFactor, if_neg (by decide), one_mul]

theorem valF_minSubnormal (fmt : Fmt) : valF fmt 0x01#8 = fieldMagnitude fmt.mb fmt.bias 1 :=
  valF_of_codeSign_zero fmt (by decide)

/-- A finite bound on a magnitude is a bound on its magnitude field's value. -/
theorem fieldMagnitude_le_of_magnitude32_le {x : F32} {q : ℚ} (hle : magnitude32 x ≤ (q : WithTop ℚ)) :
    fieldMagnitude 23 127 (f32Mag x).toNat ≤ q := by
  unfold magnitude32 at hle
  split at hle
  · exact absurd hle (WithTop.coe_lt_top q).not_ge
  · rwa [WithTop.coe_le_coe, abs_finite32] at hle

/-- R150: up to half the smallest subnormal the lower neighbour is 0, which is nearer, or even where there is a tie. -/
theorem roundedMagnitude_rne_underflow {fmt : Fmt} {x : F32}
    (hle : fieldMagnitude 23 127 (f32Mag x).toNat ≤ fieldMagnitude fmt.mb fmt.bias 1 / 2) (rnd : Word) :
    roundedMagnitude fmt x .rne rnd = 0 := by
  have hmono := fieldMagnitude_strictMono fmt.mb fmt.bias
  have hpos : 0 < fieldMagnitude fmt.mb fmt.bias 1 := by
    rw [← fieldMagnitude_zero fmt.mb fmt.bias]
    exact hmono Nat.one_pos
  have hzero : unroundedMagnitude fmt x = 0 := by
    rw [← Nat.lt_one_iff, unroundedMagnitude_lt_iff]
    linarith
  have hround := roundedMagnitude_rne fmt x rnd
  rw [hzero] at hround
  refine hround.eq_of_even ?_ rfl
  rw [fieldMagnitude_zero, zero_add]
  linarith

/-- Settles O29: a code with magnitude code 0 is the sentinel or 0x00, and the sentinel is for NaN. -/
theorem encodeHasOneZero : Obligations.EncodeHasOneZero := by
  unfold Obligations.EncodeHasOneZero
  intro fmt mode x rnd s hx
  refine ⟨fp8Encode fmt x mode rnd, exec_encodeCall fmt mode x rnd s, fun hmag => ?_, fun hmag => ?_, ?_⟩
  · have hexp : f32Exp x = 0x00#8 := by
      rw [exp_eq_zero_iff, hmag]
      rfl
    exact fp8Encode_of_exp_zero fmt hexp mode rnd
  · exact (codeMag_eq_zero_iff (fp8Encode_ne_nanCode fmt hx mode rnd)).mp hmag
  · rintro rfl hle
    have hsmall : fieldMagnitude 23 127 (f32Mag (clip fmt x)).toNat ≤ fieldMagnitude fmt.mb fmt.bias 1 / 2 := by
      rw [fieldMagnitude_clip, ← valF_minSubnormal]
      exact (min_le_left _ _).trans (fieldMagnitude_le_of_magnitude32_le hle)
    rw [fp8Encode_eq_packCode fmt hx, roundedMagnitude_rne_underflow hsmall, packCode_zero]
    rfl

/-! ## The midpoint of two neighbours -/

section
variable {fmt : Fmt} {x : F32} {n : Nat}
  (hmid : fieldMagnitude 23 127 (f32Mag x).toNat =
    (fieldMagnitude fmt.mb fmt.bias n + fieldMagnitude fmt.mb fmt.bias (n + 1)) / 2)
include hmid

theorem unroundedMagnitude_of_midpoint : unroundedMagnitude fmt x = n := by
  have hgap := fieldMagnitude_strictMono fmt.mb fmt.bias (Nat.lt_succ_self n)
  apply le_antisymm
  · rw [← Nat.lt_succ_iff, unroundedMagnitude_lt_iff, hmid]
    linarith
  · rw [le_unroundedMagnitude_iff, hmid]
    linarith

/-- RNE takes the even one of the two. -/
theorem roundedMagnitude_rne_of_midpoint_odd (hn : n % 2 = 1) (rnd : Word) :
    roundedMagnitude fmt x .rne rnd = n + 1 := by
  have hround := roundedMagnitude_rne fmt x rnd
  rw [unroundedMagnitude_of_midpoint hmid] at hround
  exact hround.eq_succ_of_odd (by linarith) hn

/-- Half of a step is half of the discarded range, and so it is half of disc's. -/
theorem discField_of_midpoint : (discField fmt x).toNat = halfDisc fmt := by
  have hdist := neighbour_distances fmt x
  rw [unroundedMagnitude_of_midpoint hmid] at hdist
  have hstep := stepValue_pos fmt x
  have hunit : stepValue fmt x / 2 ^ (fmt.w0 + subnormalShift fmt x) ≠ 0 := by positivity
  have hzero : (2 * wholeDiscarded fmt x - 2 ^ (fmt.w0 + subnormalShift fmt x) : ℚ) = 0 :=
    (mul_eq_zero.mp (by rw [← hdist]; linarith)).resolve_right hunit
  have htie : 2 * wholeDiscarded fmt x = 2 ^ (fmt.w0 + subnormalShift fmt x) := by
    exact_mod_cast sub_eq_zero.mp hzero
  have hD : wholeDiscarded fmt x = halfDisc fmt * 2 ^ subnormalShift fmt x := by
    rw [pow_add, ← two_mul_halfDisc, mul_assoc] at htie
    exact Nat.eq_of_mul_eq_mul_left two_pos htie
  have hrange : 0 < 2 ^ subnormalShift fmt x := by positivity
  rw [wholeDiscarded_eq] at hD
  obtain ⟨hquot, -⟩ := (Nat.div_mod_unique hrange).mpr ⟨hD, shiftedOut_lt fmt x⟩
  rw [← hquot, Nat.mul_div_cancel _ hrange]

/-- SR takes the upper one iff the random value is in the lower half of its range. -/
theorem roundedMagnitude_sr_of_midpoint (rnd : Word) :
    roundedMagnitude fmt x .sr rnd = if srValue fmt rnd < halfDisc fmt then n + 1 else n := by
  rw [roundedMagnitude_eq_ite, unroundedMagnitude_of_midpoint hmid, roundUp_sr]
  simp only [roundStochastic_eq_one_iff, discField_of_midpoint hmid]

end

/-! ## The two boundary rows of R159 -/

/-- Half the smallest subnormal of a format, 2^(−bias − mb), as a float32. -/
def halfMinSubnormalF32 (fmt : Fmt) (sign : Bit) : F32 :=
  compose sign (BitVec.ofNat 8 (127 - fmt.bias - fmt.mb)) 0#23

/-- The midpoint of the largest subnormal and the smallest normal of a format: its significand is mb + 1 ones, the last
of them worth half a step. -/
def subnormalMidpointF32 (fmt : Fmt) (sign : Bit) : F32 :=
  compose sign (BitVec.ofNat 8 (127 - fmt.bias)) (BitVec.ofNat 23 ((2 ^ fmt.mb - 1) * 2 ^ fmt.w0))

theorem fieldMagnitude_halfMinSubnormalF32 (fmt : Fmt) (sign : Bit) :
    fieldMagnitude 23 127 (f32Mag (halfMinSubnormalF32 fmt sign)).toNat =
      (fieldMagnitude fmt.mb fmt.bias 0 + fieldMagnitude fmt.mb fmt.bias (0 + 1)) / 2 := by
  rw [f32Mag_toNat, halfMinSubnormalF32, f32Exp_compose, f32Man_compose]
  cases fmt <;> norm_num [fieldMagnitude, fieldSignificand, ulp]

theorem fieldMagnitude_subnormalMidpointF32 (fmt : Fmt) (sign : Bit) :
    fieldMagnitude 23 127 (f32Mag (subnormalMidpointF32 fmt sign)).toNat =
      (fieldMagnitude fmt.mb fmt.bias (2 ^ fmt.mb - 1) + fieldMagnitude fmt.mb fmt.bias (2 ^ fmt.mb - 1 + 1)) / 2 := by
  rw [f32Mag_toNat, subnormalMidpointF32, f32Exp_compose, f32Man_compose]
  cases fmt <;> norm_num [fieldMagnitude, fieldSignificand, ulp]

@[simp] theorem f32Sign_halfMinSubnormalF32 (fmt : Fmt) (sign : Bit) : f32Sign (halfMinSubnormalF32 fmt sign) = sign :=
  f32Sign_compose _ _ _

@[simp] theorem f32Sign_subnormalMidpointF32 (fmt : Fmt) (sign : Bit) :
    f32Sign (subnormalMidpointF32 fmt sign) = sign :=
  f32Sign_compose _ _ _

theorem halfMinSubnormalF32_le_maxBits (fmt : Fmt) (sign : Bit) :
    (f32Mag (halfMinSubnormalF32 fmt sign)).toNat ≤ (f32Mag fmt.maxBits).toNat :=
  f32Mag_le_maxBits_of_f32Exp_le (by rw [halfMinSubnormalF32, f32Exp_compose]; cases fmt <;> decide)

theorem subnormalMidpointF32_le_maxBits (fmt : Fmt) (sign : Bit) :
    (f32Mag (subnormalMidpointF32 fmt sign)).toNat ≤ (f32Mag fmt.maxBits).toNat :=
  f32Mag_le_maxBits_of_f32Exp_le (by rw [subnormalMidpointF32, f32Exp_compose]; cases fmt <;> decide)

theorem magnitude32_halfMinSubnormalF32 (fmt : Fmt) (sign : Bit) :
    magnitude32 (halfMinSubnormalF32 fmt sign) = ((valF fmt 0x01#8 / 2 : ℚ) : WithTop ℚ) := by
  rw [magnitude32_of_le_maxBits (halfMinSubnormalF32_le_maxBits fmt sign), fieldMagnitude_halfMinSubnormalF32,
    fieldMagnitude_zero, zero_add, valF_minSubnormal]

theorem magnitude32_subnormalMidpointF32 (fmt : Fmt) (sign : Bit) :
    magnitude32 (subnormalMidpointF32 fmt sign) =
      (((valF fmt (BitVec.ofNat 8 (2 ^ fmt.mb - 1)) + valF fmt (BitVec.ofNat 8 (2 ^ fmt.mb))) / 2 : ℚ) :
        WithTop ℚ) := by
  rw [magnitude32_of_le_maxBits (subnormalMidpointF32_le_maxBits fmt sign), fieldMagnitude_subnormalMidpointF32,
    valF_of_codeSign_zero fmt (by cases fmt <;> decide), valF_of_codeSign_zero fmt (by cases fmt <;> decide)]
  cases fmt <;> rfl

theorem fp8Encode_rne_halfMinSubnormalF32 (fmt : Fmt) (sign : Bit) (rnd : Word) :
    fp8Encode fmt (halfMinSubnormalF32 fmt sign) .rne rnd = zeroCode := by
  have hsmall : fieldMagnitude 23 127 (f32Mag (halfMinSubnormalF32 fmt sign)).toNat ≤
      fieldMagnitude fmt.mb fmt.bias 1 / 2 := by
    rw [fieldMagnitude_halfMinSubnormalF32, fieldMagnitude_zero, zero_add]
  rw [fp8Encode_of_le_maxBits (halfMinSubnormalF32_le_maxBits fmt sign), roundedMagnitude_rne_underflow hsmall,
    packCode_zero]

theorem fp8Encode_sr_halfMinSubnormalF32 (fmt : Fmt) (sign : Bit) (rnd : Word) :
    fp8Encode fmt (halfMinSubnormalF32 fmt sign) .sr rnd =
      if srValue fmt rnd < halfDisc fmt then codeJoin sign 1#7 else zeroCode := by
  rw [fp8Encode_of_le_maxBits (halfMinSubnormalF32_le_maxBits fmt sign), f32Sign_halfMinSubnormalF32,
    roundedMagnitude_sr_of_midpoint (fieldMagnitude_halfMinSubnormalF32 fmt sign)]
  split <;> rfl

theorem fp8Encode_rne_subnormalMidpointF32 (fmt : Fmt) (sign : Bit) (rnd : Word) :
    fp8Encode fmt (subnormalMidpointF32 fmt sign) .rne rnd = codeJoin sign (BitVec.ofNat 7 (2 ^ fmt.mb)) := by
  have hodd : (2 ^ fmt.mb - 1) % 2 = 1 := by cases fmt <;> rfl
  rw [fp8Encode_of_le_maxBits (subnormalMidpointF32_le_maxBits fmt sign), f32Sign_subnormalMidpointF32,
    roundedMagnitude_rne_of_midpoint_odd (fieldMagnitude_subnormalMidpointF32 fmt sign) hodd,
    Nat.sub_add_cancel Nat.one_le_two_pow, packCode_of_ne_zero sign (by positivity)]

/-- Settles O37: both words are midpoints of two neighbours, of 0 and 1 and of 2^mb - 1 and 2^mb. -/
theorem encodeAtTheSubnormalBoundaries : Obligations.EncodeAtTheSubnormalBoundaries := by
  unfold Obligations.EncodeAtTheSubnormalBoundaries
  intro fmt sign rnd s
  refine ⟨halfMinSubnormalF32 fmt sign, subnormalMidpointF32 fmt sign, f32Sign_halfMinSubnormalF32 fmt sign,
    magnitude32_halfMinSubnormalF32 fmt sign, f32Sign_subnormalMidpointF32 fmt sign,
    magnitude32_subnormalMidpointF32 fmt sign, ?_, ?_, ?_⟩
  · rw [exec_of_wf rfl s, callOutputs, fp8Encode_rne_halfMinSubnormalF32]
    rfl
  · rw [exec_of_wf rfl s, callOutputs, fp8Encode_sr_halfMinSubnormalF32]
    rfl
  · rw [exec_of_wf rfl s, callOutputs, fp8Encode_rne_subnormalMidpointF32]

end Sys2Proof.Proofs.EncodeNearest
end

section
/-! PROOF. DECODE (43_decoder.md §1). A decoded code has the code's sign and, in steps of the code's place, its
significand: so its value is the code's, and the fields of the word follow from those of the code. -/

namespace Sys2Proof.Proofs.Decoder

open Sys2Proof Sys2Proof.Machine Sys2Proof.Proofs.CallQueue Sys2Proof.Proofs.MagnitudeOrder
  Sys2Proof.Proofs.CodeClasses Sys2Proof.Proofs.Convert Sys2Proof.Proofs.BitView Sys2Proof.Proofs.EncodeValue
  Sys2Proof.Proofs.EncodeNearest

/-! ## Zero and the sentinel -/

theorem fp8Decode_zeroCode (fmt : Fmt) (q : QnanBits) : fp8Decode fmt q zeroCode = 0x00000000#32 := by
  cases fmt <;> rfl

theorem fp8Decode_nanCode (fmt : Fmt) (q : QnanBits) : fp8Decode fmt q nanCode = qnanWord q :=
  if_pos rfl

/-- A code of exponent field 0 other than zero and the sentinel is a subnormal one. -/
theorem codeMan_ne_zero {fmt : Fmt} {c : Code} (hnan : c ≠ nanCode) (hzero : c ≠ zeroCode)
    (hexp : codeExp fmt c = 0) : codeMan fmt c ≠ 0 := fun hman =>
  hzero ((codeMag_eq_zero_iff hnan).mp (BitVec.eq_of_toNat_eq (by simp [codeMag_eq fmt c, hexp, hman])))

/-- QNAN_BITS in its three fields: the mantissa field is bit 22 above the payload (R13). -/
theorem qnanWord_eq_compose (q : QnanBits) : qnanWord q = compose q.sign 0xFF#8 (1#1 ++ q.payload) := by
  rw [compose, f32Join, qnanWord, BitVec.append_assoc]
  rfl

/-- Settles O39: the fields of QNAN_BITS are those of `qnanWord_eq_compose`, and its class that of `cls_qnanWord`. -/
theorem decodeOfTheSentinelIsAQuietNaN : Obligations.DecodeOfTheSentinelIsAQuietNaN := by
  unfold Obligations.DecodeOfTheSentinelIsAQuietNaN
  intro fmt q s
  have hword : fp8Decode fmt q 0x80#8 = qnanWord q := fp8Decode_nanCode fmt q
  have hcls := cls_qnanWord q
  refine ⟨qnanWord q, ?_, ?_, ?_, ?_, ?_, ?_⟩
  · rw [exec_of_wf rfl s, callOutputs, hword]
  · rw [qnanWord_eq_compose, f32Exp_compose]
  · simp only [qnanWord, BitVec.getLsbD_append]
    rfl
  · rw [hcls]
    rfl
  · rw [val32, hcls]
  · rw [qnanWord_eq_compose, compose_toNat, BitVec.toNat_append, ← Nat.shiftLeft_add_eq_or_of_lt q.payload.isLt,
      ← Nat.add_assoc]
    rfl

/-! ## The fields of the result -/

theorem f32Sign_fp8Decode (fmt : Fmt) (q : QnanBits) {c : Code} (hnan : c ≠ nanCode) (hzero : c ≠ zeroCode) :
    f32Sign (fp8Decode fmt q c) = codeSign c := by
  by_cases hexp : codeExp fmt c = 0
  · exact (fp8Decode_subnormal q hnan hexp (codeMan_ne_zero hnan hzero hexp)).1
  · exact (fp8Decode_normal q hnan hexp).1

/-- R172: the exponent field lies between that of the smallest subnormal and that of MAX. -/
theorem f32Exp_fp8Decode_bounds (fmt : Fmt) (q : QnanBits) {c : Code} (hnan : c ≠ nanCode) (hzero : c ≠ zeroCode) :
    128 - fmt.bias - fmt.mb ≤ (f32Exp (fp8Decode fmt q c)).toNat ∧
    (f32Exp (fp8Decode fmt q c)).toNat ≤ 2 ^ fmt.eb + 126 - fmt.bias := by
  have hbias := fmt.bias_le
  have hmb := fmt.w0_add_mb
  by_cases hexp : codeExp fmt c = 0
  · have hman := codeMan_ne_zero hnan hzero hexp
    obtain ⟨-, hE, -⟩ := fp8Decode_subnormal q hnan hexp hman
    obtain ⟨hp, -, -⟩ := highestOne_codeMan hman
    have heb : 2 ≤ 2 ^ fmt.eb := by cases fmt <;> decide
    omega
  · obtain ⟨-, hE, -⟩ := fp8Decode_normal q hnan hexp
    have hlt := codeExp_lt fmt c
    omega

/-- Settles O40: the two cases are `fp8Decode_normal` and `fp8Decode_subnormal`, over the integers. -/
theorem decodeFieldsOfNormalAndSubnormalCodes : Obligations.DecodeFieldsOfNormalAndSubnormalCodes := by
  unfold Obligations.DecodeFieldsOfNormalAndSubnormalCodes
  intro fmt q c s hnan hzero
  have hbias := fmt.bias_le
  have hmb := fmt.w0_add_mb
  refine ⟨fp8Decode fmt q c, exec_of_wf rfl s, f32Sign_fp8Decode fmt q hnan hzero, fun hexp => ?_, fun hexp => ?_⟩
  · obtain ⟨-, hE, hM⟩ := fp8Decode_normal q hnan hexp
    exact ⟨by omega, hM⟩
  · have hman := codeMan_ne_zero hnan hzero hexp
    obtain ⟨-, hE, hM⟩ := fp8Decode_subnormal q hnan hexp hman
    obtain ⟨hp, hle, hlt⟩ := highestOne_codeMan hman
    exact ⟨highestOne (codeMan fmt c), hp, hle, hlt, by omega, hM⟩

/-! ## The value of the result -/

/-- A decoded code has the code's significand, in steps of the code's place. -/
theorem fp8Decode_steps (fmt : Fmt) (q : QnanBits) {c : Code} (hnan : c ≠ nanCode) (hzero : c ≠ zeroCode) :
    significand (fp8Decode fmt q c) =
      fieldSignificand fmt.mb (codeMag c).toNat * 2 ^ (fmt.w0 + subnormalShift fmt (fp8Decode fmt q c)) ∧
    stepValue fmt (fp8Decode fmt q c) = ulp fmt.mb fmt.bias (codeMag c).toNat := by
  rw [fieldSignificand, stepValue, ulp, ← codeExp_eq, ← codeMan_eq]
  by_cases hexp : codeExp fmt c = 0
  · have hman := codeMan_ne_zero hnan hzero hexp
    obtain ⟨hT, hsig⟩ := fp8Decode_subnormal_steps q hnan hexp hman
    obtain ⟨hp, -, -⟩ := highestOne_codeMan hman
    rw [if_pos hexp, zero_add, hexp, max_eq_right (by omega), max_eq_right (by omega)]
    exact ⟨hsig, rfl⟩
  · obtain ⟨hT, hsig⟩ := fp8Decode_normal_steps q hnan hexp
    rw [if_neg hexp, add_comm (2 ^ fmt.mb), hT]
    exact ⟨hsig, rfl⟩

/-- R172, R78: nothing is discarded, so the magnitude of the word is that of the code. -/
theorem fieldMagnitude_fp8Decode (fmt : Fmt) (q : QnanBits) {c : Code} (hnan : c ≠ nanCode) :
    fieldMagnitude 23 127 (f32Mag (fp8Decode fmt q c)).toNat = fieldMagnitude fmt.mb fmt.bias (codeMag c).toNat := by
  by_cases hzero : c = zeroCode
  · subst hzero
    rw [fp8Decode_zeroCode]
    exact (fieldMagnitude_zero _ _).trans (fieldMagnitude_zero _ _).symm
  · obtain ⟨hsig, hstep⟩ := fp8Decode_steps fmt q hnan hzero
    have hD : wholeDiscarded fmt (fp8Decode fmt q c) = 0 := by rw [wholeDiscarded, hsig, Nat.mul_mod_left]
    rw [fieldMagnitude_eq_steps fmt, keptField_of_multiple hsig, hD, hstep, Nat.cast_zero, zero_div, add_zero,
      fieldMagnitude]

theorem finite32_fp8Decode (fmt : Fmt) (q : QnanBits) {c : Code} (hnan : c ≠ nanCode) :
    finite32 (fp8Decode fmt q c) = valF fmt c := by
  rw [finite32_eq, valF_eq, fieldMagnitude_fp8Decode fmt q hnan]
  by_cases hzero : c = zeroCode
  · subst hzero
    rw [fp8Decode_zeroCode]
    rfl
  · rw [f32Sign_fp8Decode fmt q hnan hzero]

/-- Every code but zero and the sentinel decodes to a normal float32 (R172). -/
theorem cls_fp8Decode (fmt : Fmt) (q : QnanBits) {c : Code} (hnan : c ≠ nanCode) (hzero : c ≠ zeroCode) :
    (decompose (fp8Decode fmt q c)).cls = .normal := by
  have hbounds := f32Exp_fp8Decode_bounds fmt q hnan hzero
  have hrange : 0 < 128 - fmt.bias - fmt.mb ∧ 2 ^ fmt.eb + 126 - fmt.bias < 255 := by cases fmt <;> decide
  refine cls_of_exp_ne (fun hexp => ?_) (fun hexp => ?_) <;>
    rw [hexp, BitVec.toNat_ofNat] at hbounds <;> omega

theorem fp8Decode_ne_zero (fmt : Fmt) (q : QnanBits) {c : Code} (hnan : c ≠ nanCode) (hzero : c ≠ zeroCode) :
    fp8Decode fmt q c ≠ 0x00000000#32 := fun h => by
  have hcls := cls_fp8Decode fmt q hnan hzero
  rw [h] at hcls
  exact absurd hcls (by decide)

theorem val32_fp8Decode (fmt : Fmt) (q : QnanBits) {c : Code} (hnan : c ≠ nanCode) :
    val32 (fp8Decode fmt q c) = .finite (valF fmt c) := by
  rw [← finite32_fp8Decode fmt q hnan]
  by_cases hzero : c = zeroCode
  · subst hzero
    rw [fp8Decode_zeroCode]
    rfl
  · rw [val32, cls_fp8Decode fmt q hnan hzero]

/-- Settles O38: the value is `val32_fp8Decode`, the range `f32Exp_fp8Decode_bounds` with the numbers of the format. -/
theorem decodeIsExact : Obligations.DecodeIsExact := by
  unfold Obligations.DecodeIsExact
  intro fmt q c s hnan
  refine ⟨fp8Decode fmt q c, exec_of_wf rfl s, val32_fp8Decode fmt q hnan, ?_, fun hzero => ?_⟩
  · rintro rfl
    exact fp8Decode_zeroCode fmt q
  · have hbounds := f32Exp_fp8Decode_bounds fmt q hnan hzero
    refine ⟨fp8Decode_ne_zero fmt q hnan hzero, cls_fp8Decode fmt q hnan hzero, ?_, ?_⟩
    · rintro rfl
      exact hbounds
    · rintro rfl
      exact hbounds

/-! ## The sign -/

theorem f32_ext {f g : F32} (hsign : f32Sign f = f32Sign g) (hmag : f32Mag f = f32Mag g) : f = g := by
  have hexp : f32Exp f = f32Exp g := BitVec.eq_of_toNat_eq (by rw [f32Exp_toNat, f32Exp_toNat, hmag])
  have hman : f32Man f = f32Man g := BitVec.eq_of_toNat_eq (by rw [f32Man_toNat, f32Man_toNat, hmag])
  rw [← compose_fields f, ← compose_fields g, hsign, hexp, hman]

/-- Codes of one magnitude code decode to words of one magnitude field, which the value determines. -/
theorem f32Mag_fp8Decode_congr (fmt : Fmt) (q : QnanBits) {c d : Code} (hc : c ≠ nanCode) (hd : d ≠ nanCode)
    (hmag : codeMag c = codeMag d) : f32Mag (fp8Decode fmt q c) = f32Mag (fp8Decode fmt q d) := by
  apply BitVec.eq_of_toNat_eq
  apply (fieldMagnitude_strictMono 23 127).injective
  rw [fieldMagnitude_fp8Decode fmt q hc, fieldMagnitude_fp8Decode fmt q hd, hmag]

theorem codeSign_and_7F (c : Code) : codeSign (c &&& 0x7F#8) = 0#1 := by
  rw [codeSign, BitVec.extractLsb'_and]
  exact BitVec.and_zero

theorem codeMag_and_7F (c : Code) : codeMag (c &&& 0x7F#8) = codeMag c := by
  rw [codeMag, BitVec.extractLsb'_and]
  exact BitVec.and_allOnes

theorem f32Sign_or_80000000 (f : F32) : f32Sign (f ||| 0x80000000#32) = 1#1 := by
  rw [f32Sign, BitVec.extractLsb'_or]
  exact BitVec.or_allOnes

theorem f32Mag_or_80000000 (f : F32) : f32Mag (f ||| 0x80000000#32) = f32Mag f := by
  rw [f32Mag, BitVec.extractLsb'_or]
  exact BitVec.or_zero

/-- Settles O41: without bit 7 the magnitude code, and so the magnitude field of the result, stays; a code of sign 1
other than the sentinel has a magnitude code other than 0. -/
theorem decodeCarriesTheSign : Obligations.DecodeCarriesTheSign := by
  unfold Obligations.DecodeCarriesTheSign
  refine ⟨fun fmt q c s hnan hsign => ?_, fun fmt q s => ?_⟩
  · have hzero : c ≠ zeroCode := by rintro rfl; exact absurd hsign (by decide)
    have hnan' : c &&& 0x7F#8 ≠ nanCode := fun h => by
      have hsign' := codeSign_and_7F c
      rw [h] at hsign'
      exact absurd hsign' (by decide)
    have hzero' : c &&& 0x7F#8 ≠ zeroCode := by
      rwa [Ne, ← codeMag_eq_zero_iff hnan', codeMag_and_7F, codeMag_eq_zero_iff hnan]
    have hword : fp8Decode fmt q c = fp8Decode fmt q (c &&& 0x7F#8) ||| 0x80000000#32 := by
      apply f32_ext
      · rw [f32Sign_fp8Decode fmt q hnan hzero, hsign, f32Sign_or_80000000]
      · rw [f32Mag_or_80000000, f32Mag_fp8Decode_congr fmt q hnan hnan' (codeMag_and_7F c).symm]
    refine ⟨fp8Decode fmt q (c &&& 0x7F#8), exec_of_wf rfl s, ?_, fp8Decode_ne_zero fmt q hnan' hzero', ?_⟩
    · rw [f32Sign_fp8Decode fmt q hnan' hzero', codeSign_and_7F]
    · rw [← hword]
      exact exec_of_wf rfl s
  · have hword : fp8Decode fmt q 0x00#8 = 0x00000000#32 := fp8Decode_zeroCode fmt q
    rw [exec_of_wf rfl s, callOutputs, hword]

/-! ## The two formats -/

/-- R170: where the formats agree on a code other than zero, the exponent field of the result has the range of E4M3FNUZ,
so the code is normal in both; the rebiased exponent fields and the placed mantissa fields then agree at 1.0 only. -/
theorem codeMag_of_formats_agree (q q' : QnanBits) {c : Code} (hnan : c ≠ nanCode) (hzero : c ≠ zeroCode)
    (hagree : fp8Decode .e4m3 q c = fp8Decode .e5m2 q' c) : codeMag c = 0x40#7 := by
  have hexp3 := codeExp_eq .e4m3 c
  have hexp2 := codeExp_eq .e5m2 c
  obtain ⟨hlow, -⟩ := f32Exp_fp8Decode_bounds .e4m3 q hnan hzero
  rw [hagree] at hlow
  have hnormal2 : codeExp .e5m2 c ≠ 0 := fun hexp => by
    have hman := codeMan_ne_zero hnan hzero hexp
    obtain ⟨-, hE, -⟩ := fp8Decode_subnormal q' hnan hexp hman
    obtain ⟨hp, -, -⟩ := highestOne_codeMan hman
    simp only [Fmt.bias_e4m3, Fmt.mb_e4m3, Fmt.bias_e5m2, Fmt.mb_e5m2] at hlow hE hp
    omega
  obtain ⟨-, hE2, hM2⟩ := fp8Decode_normal q' hnan hnormal2
  simp only [Fmt.bias_e4m3, Fmt.mb_e4m3, Fmt.bias_e5m2, Fmt.mb_e5m2] at hlow hE2 hexp2 hexp3
  have hnormal3 : codeExp .e4m3 c ≠ 0 := by omega
  obtain ⟨-, hE3, hM3⟩ := fp8Decode_normal q hnan hnormal3
  rw [hagree] at hE3 hM3
  rw [hM2, codeMan_eq, codeMan_eq] at hM3
  simp only [Fmt.bias_e4m3, Fmt.mb_e4m3, Fmt.mb_e5m2, Fmt.w0_e4m3, Fmt.w0_e5m2] at hE3 hM3
  apply BitVec.eq_of_toNat_eq
  rw [BitVec.toNat_ofNat]
  omega

theorem fp8Decode_one (fmt : Fmt) (q : QnanBits) : fp8Decode fmt q 0x40#8 = 0x3F800000#32 := by
  cases fmt <;> rfl

theorem fp8Decode_minusOne (fmt : Fmt) (q : QnanBits) : fp8Decode fmt q 0xC0#8 = 0xBF800000#32 := by
  cases fmt <;> rfl

theorem eq_of_codeMag_eq_40 {c : Code} (hmag : codeMag c = 0x40#7) : c = 0x40#8 ∨ c = 0xC0#8 := by
  rw [← codeJoin_codeSign_codeMag c, hmag]
  generalize codeSign c = sign
  decide +revert

/-- Settles O42: the codes of magnitude code 0x40 are 1.0 and −1.0 in both formats, and no others agree by
`codeMag_of_formats_agree`. -/
theorem formatsDecodeAlikeOnlyZeroAndPlusMinusOne : Obligations.FormatsDecodeAlikeOnlyZeroAndPlusMinusOne := by
  unfold Obligations.FormatsDecodeAlikeOnlyZeroAndPlusMinusOne
  intro q q' c s hnan
  refine ⟨fp8Decode .e4m3 q c, fp8Decode .e5m2 q' c, exec_of_wf rfl s, exec_of_wf rfl s, fun hagree => ?_, ?_⟩
  · by_cases hzero : c = zeroCode
    · exact .inl hzero
    · exact .inr (eq_of_codeMag_eq_40 (codeMag_of_formats_agree q q' hnan hzero hagree))
  · rintro (rfl | rfl | rfl)
    · exact (fp8Decode_zeroCode .e4m3 q).trans (fp8Decode_zeroCode .e5m2 q').symm
    · rw [fp8Decode_one, fp8Decode_one]
    · rw [fp8Decode_minusOne, fp8Decode_minusOne]

end Sys2Proof.Proofs.Decoder
end

section
/-! PROOF. IS_NAN and CONST (43_decoder.md §2, §3). CONST encodes float32 constants; each is what DECODE gives for its
code, so ENCODE gives that code back (R158, R183). -/

namespace Sys2Proof.Proofs.Constants

open Sys2Proof Sys2Proof.Machine Sys2Proof.Proofs.CallQueue Sys2Proof.Proofs.MagnitudeOrder
  Sys2Proof.Proofs.CodeClasses Sys2Proof.Proofs.Convert Sys2Proof.Proofs.EncodeValue Sys2Proof.Proofs.EncodeCases
  Sys2Proof.Proofs.EncodeNearest

/-- Settles O44: the output of IS_NAN is `isSentinel`, which is this test. -/
theorem isNanReportsOnlyTheSentinel : Obligations.IsNanReportsOnlyTheSentinel := by
  unfold Obligations.IsNanReportsOnlyTheSentinel
  intro c s
  exact exec_of_wf rfl s

/-! ## The codes of the constants -/

/-- The smallest normal code: exponent field 1, mantissa field 0. -/
def minNormalCode (fmt : Fmt) : Code := BitVec.ofNat 8 (2 ^ fmt.mb)

/-- The code of 2^(−mb): exponent field bias − mb, mantissa field 0. -/
def epsilonCode (fmt : Fmt) : Code := BitVec.ofNat 8 ((fmt.bias - fmt.mb) * 2 ^ fmt.mb)

theorem fp8Decode_minSubnormal (fmt : Fmt) (q : QnanBits) : fp8Decode fmt q 0x01#8 = minSubnormalF32 fmt := by
  cases fmt <;> rfl

theorem fp8Decode_minNormalCode (fmt : Fmt) (q : QnanBits) :
    fp8Decode fmt q (minNormalCode fmt) = minNormalF32 fmt := by
  cases fmt <;> rfl

theorem fp8Decode_maxFinite (fmt : Fmt) (q : QnanBits) : fp8Decode fmt q 0x7F#8 = fmt.maxBits := by
  cases fmt <;> rfl

theorem fp8Decode_epsilonCode (fmt : Fmt) (q : QnanBits) : fp8Decode fmt q (epsilonCode fmt) = epsilonF32 fmt := by
  cases fmt <;> rfl

/-- A code that decodes to a float32 constant is the constant's code. -/
theorem codeOfF32_eq {fmt : Fmt} {x : F32} {c : Code} (hdecode : ∀ q : QnanBits, fp8Decode fmt q c = x) :
    codeOfF32 fmt x = c := by
  rw [codeOfF32, ← hdecode ⟨0#1, 0#22⟩, fp8Encode_fp8Decode]

/-- R181, R182: what CONST returns, for either format. -/
theorem fmtConstants_eq (fmt : Fmt) : fmtConstants fmt =
    { exponentBits := fmt.eb, mantissaBits := fmt.mb, bias := fmt.bias, maxFiniteMagnitude := fmt.maxBits,
      minSubnormal := 0x01#8, minNormal := minNormalCode fmt, maxFinite := 0x7F#8, epsilon := epsilonCode fmt,
      nan := nanCode, roundErrorBound := Config.roundErrorConst fmt } := by
  rw [fmtConstants, codeOfF32_eq (fp8Decode_minSubnormal fmt), codeOfF32_eq (fp8Decode_minNormalCode fmt),
    codeOfF32_eq (fp8Decode_maxFinite fmt), codeOfF32_eq (fp8Decode_epsilonCode fmt)]

/-- Settles O45: it is `fmtConstants_eq` with the numbers of each format. -/
theorem constReturnsTheConstants : Obligations.ConstReturnsTheConstants := by
  unfold Obligations.ConstReturnsTheConstants
  intro s
  constructor
  · rw [exec_of_wf rfl s, callOutputs, fmtConstants_eq]
    rfl
  · rw [exec_of_wf rfl s, callOutputs, fmtConstants_eq]
    rfl

/-! ## The definitions of the code patterns -/

theorem valF_le_maxFinite (fmt : Fmt) (c : Code) : valF fmt c ≤ valF fmt 0x7F#8 := by
  calc valF fmt c ≤ |valF fmt c| := le_abs_self _
    _ = fieldMagnitude fmt.mb fmt.bias (codeMag c).toNat := abs_valF fmt c
    _ ≤ fieldMagnitude fmt.mb fmt.bias 127 :=
      (fieldMagnitude_strictMono _ _).monotone (Nat.le_of_lt_succ (codeMag c).isLt)
    _ = valF fmt 0x7F#8 := (valF_of_codeSign_zero fmt (c := 0x7F#8) (by decide)).symm

theorem valF_maxFinite (fmt : Fmt) : valF fmt 0x7F#8 = maxFiniteValue fmt := by
  rw [← fieldMagnitude_maxCode]
  exact valF_of_codeSign_zero fmt (by decide)

/-- A code with an exponent field other than 0 is not below 2^mb, the place of that field. -/
theorem minNormalCode_le {fmt : Fmt} {c : Code} (hexp : codeExp fmt c ≠ 0) :
    (minNormalCode fmt).toNat ≤ c.toNat := by
  have hle : 2 ^ fmt.mb ≤ (codeMag c).toNat := by
    rw [codeExp_eq] at hexp
    exact (Nat.div_ne_zero_iff.mp hexp).2
  calc (minNormalCode fmt).toNat ≤ 2 ^ fmt.mb := Nat.mod_le _ _
    _ ≤ (codeMag c).toNat := hle
    _ ≤ c.toNat := by rw [codeMag_toNat]; exact Nat.mod_le _ _

/-- R182: from 1.0, which has magnitude code 0x40, to the next code is one unit in the last place, 2^(−mb). -/
theorem valF_epsilonCode (fmt : Fmt) : valF fmt (epsilonCode fmt) = valF fmt 0x41#8 - 1 := by
  have hone : fieldMagnitude fmt.mb fmt.bias 0x40 = 1 := by
    cases fmt <;> norm_num [fieldMagnitude, fieldSignificand, ulp]
  have hnext : valF fmt 0x41#8 = 1 + ulp fmt.mb fmt.bias 0x40 := by
    rw [← hone, ← fieldMagnitude_succ]
    exact valF_of_codeSign_zero fmt (by decide)
  rw [hnext, add_sub_cancel_left, valF_of_codeSign_zero fmt (by cases fmt <;> decide)]
  cases fmt <;> norm_num [fieldMagnitude, fieldSignificand, ulp, epsilonCode, codeMag]

/-- Settles O46: the patterns are those of `fmtConstants_eq`, and the value grows with the magnitude code. -/
theorem constPatternsMeetTheirDefinitions : Obligations.ConstPatternsMeetTheirDefinitions := by
  unfold Obligations.ConstPatternsMeetTheirDefinitions
  intro fmt s
  refine ⟨fmtConstants fmt, exec_of_wf rfl s, ?_⟩
  rw [fmtConstants_eq]
  refine ⟨?_, fun c _ hpos => ?_, by cases fmt <;> decide, by cases fmt <;> decide,
    fun c hexp _ => minNormalCode_le hexp, fun c _ => valF_le_maxFinite fmt c, valF_maxFinite fmt,
    valF_epsilonCode fmt, rfl⟩
  · rw [valF_minSubnormal, ← fieldMagnitude_zero fmt.mb fmt.bias]
    exact fieldMagnitude_strictMono _ _ Nat.one_pos
  · have hne : c ≠ zeroCode := by
      rintro rfl
      exact hpos.ne' ((valF_eq_zero_iff fmt (by decide)).mpr rfl)
    exact Nat.one_le_iff_ne_zero.mpr fun h => hne (BitVec.eq_of_toNat_eq h)

/-- Settles O47: DECODE gives the float32 constants for their codes, and ENCODE undoes DECODE. -/
theorem constantsAgreeWithTheCodec : Obligations.ConstantsAgreeWithTheCodec := by
  unfold Obligations.ConstantsAgreeWithTheCodec
  intro fmt q mode rnd s
  have hmax : fp8Encode fmt fmt.maxBits mode rnd = 0x7F#8 := by
    rw [← fp8Decode_maxFinite fmt q, fp8Encode_fp8Decode]
  refine ⟨fmtConstants fmt, fp8Decode fmt q 0x01#8, exec_of_wf rfl s, ?_⟩
  rw [fmtConstants_eq]
  refine ⟨rfl, ?_, ?_, exec_of_wf rfl s, exec_of_wf rfl s, ?_, valF_epsilonCode fmt⟩
  · rw [exec_of_wf rfl s, callOutputs, fp8Decode_maxFinite]
  · rw [exec_encodeCall, hmax]
  · rw [exec_of_wf rfl s, callOutputs, fp8Encode_fp8Decode]

end Sys2Proof.Proofs.Constants
end

section
/-! PROOF. Exceptions and instances (60_exceptions.md §1, §4, §5). No unit signals an error, so a call that its ports can
carry gives back outputs in the unit's range (R190, R205); instances of equal parameters are interchangeable (R201). -/

namespace Sys2Proof.Proofs.Exceptions

open Sys2Proof Sys2Proof.Machine Sys2Proof.Proofs.CallQueue Sys2Proof.Proofs.CodeClasses Sys2Proof.Proofs.Convert
  Sys2Proof.Proofs.EncodeValue Sys2Proof.Proofs.EncodeCases Sys2Proof.Proofs.EncodeNearest Sys2Proof.Proofs.Decoder

/-! ## The range of each unit's outputs -/

/-- R86: the cls port never carries 5, 6 or 7. -/
theorem number_toNat_le (cls : FloatClass) : cls.number.toNat ≤ 4 := by
  cases cls <;> decide

/-- R141, R150, R157: the sentinel is the code of the NaNs alone, and any other code is packed with the sign of the
input. -/
theorem encodedLegal_fp8Encode (fmt : Fmt) (x : F32) (mode : RoundMode) (rnd : Word) :
    encodedLegal x (fp8Encode fmt x mode rnd) := by
  by_cases hnan : (decompose x).cls = .nan
  · have hcode : fp8Encode fmt x mode rnd = nanCode := if_pos hnan
    exact ⟨iff_of_true hcode hnan, fun hne => absurd hcode hne⟩
  · have hx := (cls_eq_nan_iff x).not.mp hnan
    refine ⟨iff_of_false (fp8Encode_ne_nanCode fmt hx mode rnd) hnan, fun _ hzero => ?_⟩
    rw [fp8Encode_eq_packCode fmt hx] at hzero ⊢
    exact codeSign_packCode hzero

/-- R171: bit 22 of QNAN_BITS is set, so the NaN is a quiet one. -/
theorem qnanWord_quiet (q : QnanBits) : (qnanWord q).getLsbD 22 = true := by
  simp only [qnanWord, BitVec.getLsbD_append]
  rfl

/-- R171, R172: a decoded word is +0.0, normal or a quiet NaN, by the code: zero, any other number, the sentinel. -/
theorem decodedLegal_fp8Decode (fmt : Fmt) (q : QnanBits) (c : Code) : decodedLegal (fp8Decode fmt q c) := by
  by_cases hnan : c = nanCode
  · subst hnan
    rw [fp8Decode_nanCode]
    exact .inr (.inr ⟨cls_qnanWord q, qnanWord_quiet q⟩)
  · by_cases hzero : c = zeroCode
    · subst hzero
      exact .inl (fp8Decode_zeroCode fmt q)
    · exact .inr (.inl (cls_fp8Decode fmt q hnan hzero))

/-- DECODE gives a NaN for the sentinel alone: any other code has a value (R171, R172). -/
theorem cls_fp8Decode_eq_nan_iff (fmt : Fmt) (q : QnanBits) (c : Code) :
    (decompose (fp8Decode fmt q c)).cls = .nan ↔ c = nanCode := by
  constructor
  · intro hcls
    by_contra hnan
    have hval := val32_fp8Decode fmt q hnan
    rw [val32, hcls] at hval
    cases hval
  · rintro rfl
    rw [fp8Decode_nanCode, cls_qnanWord]

/-- What a call gives back belongs to its unit and lies where the rules say. -/
theorem outputsLegal_callOutputs (i : Instr) : outputsLegal i (callOutputs i) := by
  cases i with
  | decompose f => exact number_toNat_le _
  | compose => trivial
  | roundRne => trivial
  | roundSr fmt keptLsb disc sticky rnd =>
    rintro rfl
    exact roundDecide_disc_zero fmt keptLsb sticky .sr rnd
  | encodeRne fmt x rnd => exact encodedLegal_fp8Encode fmt x .rne rnd
  | encodeSr fmt x rnd => exact encodedLegal_fp8Encode fmt x .sr rnd
  | decode params c => exact ⟨decodedLegal_fp8Decode _ _ c, cls_fp8Decode_eq_nan_iff _ _ c⟩
  | isNan c => exact isSentinel_eq_one_iff c
  | const fmt => exact ⟨fmt.eb_add_mb, rfl⟩

/-- The only call that its ports cannot carry is a rounding with a disc too wide, which is refused (log 17). -/
theorem exec_of_not_wf {i : Instr} (hwf : i.wf = false) (s : State) : exec i s = .refused .discOutOfRange := by
  cases i with
  | roundRne => exact answerIfDiscFits_of_not hwf _ _ s
  | roundSr => exact answerIfDiscFits_of_not hwf _ _ s
  | decompose | compose | encodeRne | encodeSr | decode | isNan | const => cases hwf

/-- Settles O7: a call completes with its `callOutputs` or is refused, by whether its ports can carry it. -/
theorem everyCallCompletes : Obligations.EveryCallCompletes := by
  unfold Obligations.EveryCallCompletes
  exact ⟨fun i s hwf => ⟨callOutputs i, exec_of_wf hwf s, outputsLegal_callOutputs i⟩,
    fun _ s hwf => exec_of_not_wf hwf s⟩

/-! ## Decoders of one format -/

/-- QNAN_BITS is read for the sentinel only (R170, R194). -/
theorem fp8Decode_congr_qnan (fmt : Fmt) (q q' : QnanBits) {c : Code} (hnan : c ≠ nanCode) :
    fp8Decode fmt q c = fp8Decode fmt q' c := by
  rw [fp8Decode, fp8Decode, if_neg hnan, if_neg hnan]

/-- The open bits of QNAN_BITS are all in its word: the sign field and the mantissa field below bit 22 (R13). -/
theorem qnanWord_injective : Function.Injective qnanWord := by
  intro q q' hword
  rw [qnanWord_eq_compose, qnanWord_eq_compose] at hword
  have hsign : q.sign = q'.sign := by simpa using congrArg f32Sign hword
  have hman : 1#1 ++ q.payload = 1#1 ++ q'.payload := by simpa using congrArg f32Man hword
  have hpayload : q.payload = q'.payload := (BitVec.append_right_inj _).mp hman
  cases q
  cases q'
  exact congrArg₂ QnanBits.mk hsign hpayload

/-- Settles O51: away from the sentinel QNAN_BITS is not read, and the sentinel gives back QNAN_BITS itself. -/
theorem decodersOfOneFormatDifferOnlyAtTheSentinel : Obligations.DecodersOfOneFormatDifferOnlyAtTheSentinel := by
  unfold Obligations.DecodersOfOneFormatDifferOnlyAtTheSentinel
  intro fmt q q' c s t
  refine ⟨fp8Decode fmt q c, fp8Decode fmt q' c, exec_of_wf rfl s, exec_of_wf rfl t, ?_⟩
  by_cases hnan : c = nanCode
  · subst hnan
    rw [fp8Decode_nanCode, fp8Decode_nanCode, qnanWord_injective.eq_iff]
    exact (or_iff_right (not_not_intro rfl)).symm
  · exact iff_of_true (fp8Decode_congr_qnan fmt q q' hnan) (.inl hnan)

end Sys2Proof.Proofs.Exceptions
end

section
/-! PROOF. The call word as an encoding of the calls, and the record over a step (30_encoding.md §3, §4, 42_encoder.md §3,
43_decoder.md §1, 70_reset_and_hazards.md §1; log 1 to 5). -/

namespace Sys2Proof.Proofs.CallRecord

open Sys2Proof Sys2Proof.Machine Sys2Proof.Proofs.CallQueue Sys2Proof.Proofs.Batch Sys2Proof.Proofs.Exceptions

/-! ## From a call to its word -/

/-- Settles O5: it is `decode_encode`. -/
theorem decodeOfEncodeIsTheCall : Obligations.DecodeOfEncodeIsTheCall := by
  unfold Obligations.DecodeOfEncodeIsTheCall
  exact fun _ hwf => decode_encode hwf

theorem decode_of_encode_eq {i : Instr} {w : CallWord} (hwf : i.wf = true) (hword : encode i = w) :
    decode w = .ok i :=
  hword ▸ decode_encode hwf

/-- Settles O4: nine of the words are their call's `encode`; the other two fail the tests of the unit select and of the
disc. -/
theorem writtenCallWordsDecode : Obligations.WrittenCallWordsDecode := by
  unfold Obligations.WrittenCallWordsDecode
  refine ⟨?_, ?_, ?_, ?_, ?_, ?_, ?_, ?_, ?_, ?unit, ?disc⟩
  case unit => rfl
  case disc => rfl
  all_goals exact decode_of_encode_eq (by decide) (by decide)

/-! ## From a word to its call -/

theorem toBit_roundMode_ofBit (b : Bit) : (RoundMode.ofBit b).toBit = b := by
  revert b
  decide

theorem toBit_fmt_ofBit (b : Bit) : (Fmt.ofBit b).toBit = b := by
  revert b
  decide

theorem toSelect_of_ofSelect_eq_some {b : BitVec 3} {u : CodecUnit} (hunit : CodecUnit.ofSelect b = some u) :
    u.toSelect = b := by
  revert b u
  decide

/-- The fields of a word whose spare bits are zero, laid out again, give the word back. -/
theorem packCall_fields {w : CallWord} {u : CodecUnit} (hspare : spareField w = 0#3)
    (hunit : u.toSelect = unitField w) : packCall (modeField w) u (fmtField w) (portA w) (portB w) = w := by
  rw [packCall, ← hspare, hunit]
  simp only [portB, portA, spareField, fmtField, unitField, modeField]
  simp only [BitVec.extractLsb'_append_extractLsb'_eq_extractLsb', BitVec.extractLsb'_eq_self]

theorem roundPorts_extract {a : Word} (hrest : a.extractLsb' 23 9 = 0#9) :
    roundPorts (a.extractLsb' 21 1) (a.extractLsb' 0 21) (a.extractLsb' 22 1) = a := by
  rw [roundPorts, ← hrest]
  simp only [BitVec.extractLsb'_append_extractLsb'_eq_extractLsb', BitVec.extractLsb'_eq_self]

theorem codePort_extract {a : Word} (hrest : a.extractLsb' 8 24 = 0#24) : codePort (a.extractLsb' 0 8) = a := by
  rw [codePort, ← hrest, BitVec.extractLsb'_append_extractLsb']

theorem qnanPort_readQnan {b : Word} (hrest : b.extractLsb' 23 9 = 0#9) : qnanPort (readQnan b) = b := by
  rw [qnanPort, readQnan, ← hrest]
  simp only [BitVec.extractLsb'_append_extractLsb'_eq_extractLsb', BitVec.extractLsb'_eq_self]

theorem composePortA_extract {a : Word} (hrest : a.extractLsb' 23 9 = 0#9) : 0#9 ++ a.extractLsb' 0 23 = a := by
  rw [← hrest, BitVec.extractLsb'_append_extractLsb']

theorem composePortB_extract {b : Word} (hrest : b.extractLsb' 9 23 = 0#23) :
    0#23 ++ b.extractLsb' 8 1 ++ b.extractLsb' 0 8 = b := by
  rw [← hrest]
  simp only [BitVec.extractLsb'_append_extractLsb'_eq_extractLsb', BitVec.extractLsb'_eq_self]

theorem encode_readEncode (w : CallWord) :
    encode (readEncode w) = packCall (modeField w) .encoder (fmtField w) (portA w) (portB w) := by
  unfold readEncode
  cases hmode : RoundMode.ofBit (modeField w) <;>
    simp only [encode, ← hmode, toBit_roundMode_ofBit, toBit_fmt_ofBit]

theorem encode_readRound {w : CallWord} (hrest : (portA w).extractLsb' 23 9 = 0#9) :
    encode (readRound w) = packCall (modeField w) .rounding (fmtField w) (portA w) (portB w) := by
  unfold readRound
  cases hmode : RoundMode.ofBit (modeField w) <;>
    simp only [encode, ← hmode, toBit_roundMode_ofBit, toBit_fmt_ofBit, roundPorts_extract hrest]

theorem wf_readEncode (w : CallWord) : (readEncode w).wf = true := by
  unfold readEncode
  cases RoundMode.ofBit (modeField w) <;> rfl

theorem decodeUnit_rounding_eq_ok {w : CallWord} {i : Instr} (hok : decodeUnit .rounding w = .ok i) :
    i = readRound w ∧ i.wf = true ∧ (portA w).extractLsb' 23 9 = 0#9 := by
  simp only [decodeUnit] at hok
  split at hok
  next hwf =>
    obtain ⟨hrest, rfl⟩ := whenZero_eq_ok.mp hok
    exact ⟨rfl, hwf, of_decide_eq_true hrest⟩
  next => cases hok

/-- Each unit's reader accepts a word only where the call's own layout has the same fields. -/
theorem wf_and_encode_of_decodeUnit_eq_ok {u : CodecUnit} {w : CallWord} {i : Instr} (hok : decodeUnit u w = .ok i) :
    i.wf = true ∧ encode i = packCall (modeField w) u (fmtField w) (portA w) (portB w) := by
  cases u with
  | encoder =>
    obtain rfl : readEncode w = i := Except.ok.inj hok
    exact ⟨wf_readEncode w, encode_readEncode w⟩
  | rounding =>
    obtain ⟨rfl, hwf, hrest⟩ := decodeUnit_rounding_eq_ok hok
    exact ⟨hwf, encode_readRound hrest⟩
  | decoder =>
    simp only [decodeUnit, whenZero_eq_ok, Bool.and_eq_true, decide_eq_true_eq] at hok
    obtain ⟨⟨⟨hmode, hA⟩, hB⟩, rfl⟩ := hok
    exact ⟨rfl, by rw [encode, toBit_fmt_ofBit, codePort_extract hA, qnanPort_readQnan hB, hmode]⟩
  | isNan =>
    simp only [decodeUnit, whenZero_eq_ok, Bool.and_eq_true, decide_eq_true_eq] at hok
    obtain ⟨⟨⟨⟨hmode, hfmt⟩, hA⟩, hB⟩, rfl⟩ := hok
    exact ⟨rfl, by rw [encode, codePort_extract hA, hmode, hfmt, hB]⟩
  | const =>
    simp only [decodeUnit, whenZero_eq_ok, Bool.and_eq_true, decide_eq_true_eq] at hok
    obtain ⟨⟨⟨hmode, hA⟩, hB⟩, rfl⟩ := hok
    exact ⟨rfl, by rw [encode, toBit_fmt_ofBit, hmode, hA, hB]⟩
  | decompose =>
    simp only [decodeUnit, whenZero_eq_ok, Bool.and_eq_true, decide_eq_true_eq] at hok
    obtain ⟨⟨⟨hmode, hfmt⟩, hB⟩, rfl⟩ := hok
    exact ⟨rfl, by rw [encode, hmode, hfmt, hB]⟩
  | compose =>
    simp only [decodeUnit, whenZero_eq_ok, Bool.and_eq_true, decide_eq_true_eq] at hok
    obtain ⟨⟨⟨⟨hmode, hfmt⟩, hA⟩, hB⟩, rfl⟩ := hok
    exact ⟨rfl, by rw [encode, composePortA_extract hA, composePortB_extract hB, hmode, hfmt]⟩

/-- A word that decodes has zero spare bits and names the unit whose reader reads the call. -/
theorem decode_eq_ok {w : CallWord} {i : Instr} (hok : decode w = .ok i) :
    spareField w = 0#3 ∧ ∃ u, CodecUnit.ofSelect (unitField w) = some u ∧ decodeUnit u w = .ok i := by
  unfold decode at hok
  split at hok
  next hspare =>
    split at hok
    next u hunit => exact ⟨hspare, u, hunit, hok⟩
    next => cases hok
  next => cases hok

/-- Settles O6: the call's word has the fields of the word read, and a word is its fields. -/
theorem encodeOfDecodeIsTheWord : Obligations.EncodeOfDecodeIsTheWord := by
  unfold Obligations.EncodeOfDecodeIsTheWord
  intro w i hok
  obtain ⟨hspare, u, hunit, hread⟩ := decode_eq_ok hok
  obtain ⟨hwf, hencode⟩ := wf_and_encode_of_decodeUnit_eq_ok hread
  exact ⟨hwf, hencode.trans (packCall_fields hspare (toSelect_of_ofSelect_eq_some hunit))⟩

/-- The call that a table word stands for is the call of the word placed for it (log 4). -/
theorem decode_tableCallWord {nbits w : Nat} {i : Instr} (htable : decodeTableWord nbits w = some i) :
    decode (tableCallWord nbits w) = .ok i := by
  unfold decodeTableWord at htable
  split at htable
  next =>
    cases hword : decode (tableCallWord nbits w) with
    | ok j =>
      rw [hword] at htable
      exact congrArg Except.ok (Option.some.inj htable)
    | error r =>
      rw [hword] at htable
      cases htable
  next => cases htable

/-- Settles O3: the placed word stands in front of the queue, and taking it off leaves the original state. -/
theorem stepRunsThePlacedTableWord : Obligations.StepRunsThePlacedTableWord := by
  unfold Obligations.StepRunsThePlacedTableWord
  intro s nbits w i htable
  exact step_of_call (State.withFetchWord_calls s nbits w) (decode_tableCallWord htable)

/-! ## The record over a step -/

theorem sound_withCalls {s : State} (hsound : s.Sound) (calls : List CallWord) : (s.withCalls calls).Sound :=
  hsound

/-- The entry that a call its ports can carry adds to the record is a legal one. -/
theorem sound_returning {s : State} (hsound : s.Sound) {i : Instr} (hwf : i.wf = true) :
    (s.returning i (callOutputs i)).Sound :=
  List.forall_mem_cons.mpr ⟨⟨hwf, outputsLegal_callOutputs i⟩, hsound⟩

theorem sound_of_exec_eq_next {i : Instr} {s t : State} (hsound : s.Sound) (hexec : exec i s = .next t) : t.Sound := by
  rw [eq_returning_of_exec_eq_next hexec]
  exact sound_returning hsound (wf_of_exec_eq_next hexec)

/-- A step that gives a next state has idled on an empty queue or has run the call in front of it. -/
theorem step_eq_next_cases {s t : State} (hstep : step s = .next t) :
    (s.calls = [] ∧ t = s) ∨
      ∃ w rest i, s.calls = w :: rest ∧ decode w = .ok i ∧ exec i (s.withCalls rest) = .next t := by
  cases hcalls : s.calls with
  | nil =>
    rw [step_of_no_call hcalls] at hstep
    exact .inl ⟨rfl, (Host.Outcome.next.inj hstep).symm⟩
  | cons w rest =>
    cases hdecode : decode w with
    | ok i =>
      rw [step_of_call hcalls hdecode] at hstep
      exact .inr ⟨w, rest, i, rfl, hdecode, hstep⟩
    | error r =>
      rw [step_of_bad_call hcalls hdecode] at hstep
      cases hstep

/-- Settles O13: an idle step changes nothing, and any other records one legal entry. -/
theorem stepKeepsTheRecordSound : Obligations.StepKeepsTheRecordSound := by
  unfold Obligations.StepKeepsTheRecordSound
  intro s t hsound hstep
  obtain ⟨_, rfl⟩ | ⟨_, rest, _, _, _, hexec⟩ := step_eq_next_cases hstep
  · exact hsound
  · exact sound_of_exec_eq_next (sound_withCalls hsound rest) hexec

theorem sound_reset : State.reset.Sound :=
  List.forall_mem_nil _

/-- Settles O14: both fields are empty at reset, so nothing is recorded and no call is pending. -/
theorem resetIsSoundAndIdle : Obligations.ResetIsSoundAndIdle := by
  unfold Obligations.ResetIsSoundAndIdle
  exact ⟨sound_reset, State.reset_calls, State.reset_returned, step_of_no_call State.reset_calls⟩

end Sys2Proof.Proofs.CallRecord
end
